-- ==== Sys2Proof/Word.lean ====
section
/-! DEFINITION. The machine word: every register, memory cell, immediate and opcode is an unsigned 8-bit value (spec 00_scope.md R8). -/
namespace Sys2Proof

/-- An unsigned value of 8 bits, 0 to 255 (00_scope.md R8; bit 0 is the least significant, R7). -/
abbrev Byte := BitVec 8

end Sys2Proof
end

