-- ==== Sys2Proof/Config.lean ====
section
/-! DEFINITION. The implementation parameters of spec 00_scope.md R5: the fixed ones as constants, the open ones as one record. -/
namespace Sys2Proof

/-! `MEM_SIZE` = 256 and `NREG` = 8 (00_scope.md R5) stand as the literals 256 and 8 wherever the spec's pseudocode writes
them; `CELL_BITS` = `XLEN` = 8 is `Byte`; `FL_BITS` = 8 is `Byte` too; `PC_BITS` is a `Nat` (log 11). -/

/-- `SP_INDEX`: the register PUSH and POP use as the stack pointer (00_scope.md R5, 10_state.md R22). -/
abbrev spIndex : Fin 8 := 7

/-- `SP_INIT`: the stack pointer at run-start (00_scope.md R5, 70_reset_and_hazards.md R242). -/
def spInit : Byte := 0xF4

/-- `PC_RESET` (00_scope.md R5). DEDUCED (the spec's decision D9; log 5). -/
def pcReset : Nat := 0

/-- `FL_RESET` (00_scope.md R5). DESIGN CHOICE (the spec's decision D8; log 6). -/
def flReset : Byte := 0

/-- `ALU_OPERANDS`: how ADD, MUL and CMP pick their registers (00_scope.md R5, 43_arithmetic_compare.md R153). -/
inductive AluOperands where
  /-- The handler names its registers itself and reads no operand byte. -/
  | fixed
  /-- The two operand bytes name the registers. -/
  | decoded
deriving DecidableEq, Repr

/-- The eleven opcode byte values `OPC_*`, open parameters (00_scope.md R5, 30_encoding.md R83). -/
structure Opcodes where
  ldi  : Byte
  prn  : Byte
  hlt  : Byte
  mul  : Byte
  add  : Byte
  push : Byte
  pop  : Byte
  cmp  : Byte
  jeq  : Byte
  jne  : Byte
  jmp  : Byte
deriving DecidableEq, Repr

/-- The eleven values in the order of the table of 30_encoding.md R83. -/
def Opcodes.values (o : Opcodes) : List Byte :=
  [o.ldi, o.prn, o.hlt, o.mul, o.add, o.push, o.pop, o.cmp, o.jeq, o.jne, o.jmp]

/-- The open parameters of 00_scope.md R5 in one record. -/
structure Config where
  /-- `OPC_LDI` to `OPC_JMP` (decision D1). -/
  opcodes : Opcodes
  /-- `ALU_OPERANDS` (decision D2). -/
  aluOperands : AluOperands
  /-- `EXIT_FAILURE_CODE` (decision D14). -/
  exitFailureCode : Nat
deriving DecidableEq, Repr

/-- What 00_scope.md R5 and 30_encoding.md R83 ask of the open parameters: the eleven opcode values are
pairwise distinct and none is 0x00; the failure code is not zero. -/
abbrev Config.wf (c : Config) : Prop :=
  c.opcodes.values.Nodup ∧ (∀ v ∈ c.opcodes.values, v ≠ 0) ∧ c.exitFailureCode ≠ 0

/-- The default opcode values of 30_encoding.md R83. PRESUMED: the spec marks them as general knowledge (log 1). -/
def Opcodes.default : Opcodes where
  ldi := 0x82
  prn := 0x47
  hlt := 0x01
  mul := 0xA2
  add := 0xA0
  push := 0x45
  pop := 0x46
  cmp := 0xA7
  jeq := 0x55
  jne := 0x56
  jmp := 0x54

/-- The configuration after construction: the defaults of 00_scope.md R5. DESIGN CHOICE (log 1, 2, 16). -/
def Config.default : Config where
  opcodes := Opcodes.default
  aluOperands := .fixed
  exitFailureCode := 1

end Sys2Proof
end

