-- ==== Sys2Proof/Machine/State.lean ====
section
/-! DEFINITION. The architectural state (spec 10_state.md R20), its value after reset (R35), and the reasons a step can stop. -/
namespace Sys2Proof.Machine

/-- Memory: the cells that differ from 0, addresses strictly rising (log 21). An unlisted cell reads as 0
(20_memory.md R50, "initialized to zero"). -/
abbrev Memory := List Host.Cell

/-- The sub-tag of a `BoundsFault` (60_exceptions.md R200, the spec's decision D25). -/
inductive BoundsKind where
  /-- A memory address of 256 or more (R202). -/
  | memAddress
  /-- A register index of 8 or more (R203). -/
  | regIndex
  /-- A stack pointer of -1 or 256 (R204). -/
  | spRange
deriving DecidableEq, Repr

/-- The fault values of 60_exceptions.md R200, a closed list. -/
inductive FaultRecord where
  /-- The opcode byte fetched and the address it was fetched from (R201). -/
  | invalidOpcode (op : Byte) (pc : Nat)
  /-- The sub-tag and the offending number (R202 to R204). -/
  | boundsFault (kind : BoundsKind) (value : Int)
  /-- The ALU was asked for an operation other than ADD, MUL, CMP (R205); no program can cause it. -/
  | unsupportedOperation (tag : Nat)
deriving DecidableEq, Repr

/-- The run state (10_state.md R30), derived from `fault` and `halt`. -/
inductive RunState where
  | running | halted | faulted
deriving DecidableEq, Repr

/-- Everything the spec gives the machine (10_state.md R20), with the configuration and the start-up phase. -/
structure State where
  /-- The configuration (00_scope.md R5): read only, changed by nothing (10_state.md R33).
  DESIGN CHOICE: carried here because `step` takes no other argument (log 3). -/
  cfg : Config
  /-- Whether run-start has happened (70_reset_and_hazards.md R243). DESIGN CHOICE: the model's own phase (log 4). -/
  started : Bool
  /-- Whether a program has been loaded: the host may not load twice (70_reset_and_hazards.md R245). The loader sets it
  and nothing clears it. DESIGN CHOICE: the model's own bit (log 20). -/
  loaded : Bool
  /-- `mem[0..255]` (20_memory.md R50). -/
  mem : Memory
  /-- `x[0..7]` (10_state.md R21); `x[7]` is the stack pointer (R22). -/
  regs : Vector Byte 8
  /-- `pc`, an integer that never wraps (10_state.md R25, R26; log 11). -/
  pc : Nat
  /-- `FL`: bit 0 E, bit 1 G, bit 2 L (10_state.md R27). -/
  fl : Byte
  /-- `halt` (10_state.md R29). -/
  halt : Bool
  /-- `fault` (10_state.md R31). -/
  fault : Option FaultRecord
  /-- `out`, oldest first (10_state.md R32). -/
  out : List Byte
deriving DecidableEq, Repr

/-- The machine after construction, which the spec treats as reset (00_scope.md R12, 10_state.md R35 first
column, 70_reset_and_hazards.md R240): `x[7]` is still 0, and run-start is the first step (log 4). -/
def State.reset : State where
  cfg := Config.default
  started := false
  loaded := false
  mem := []
  regs := Vector.replicate 8 0
  pc := pcReset
  fl := flReset
  halt := false
  fault := none
  out := []

/-- Why the machine takes no step. The faults of the spec are not here: taking one is a next state (log 7). -/
inductive Fault where
  /-- Raised by `step` in the run state Halted, from which there is no step (40_dispatch.md R115). Safe. -/
  | afterHalt
  /-- Raised by `step` in the run state Faulted, with the recorded fault; there is no step (40_dispatch.md R115). Safe. -/
  | afterFault (f : FaultRecord)
deriving DecidableEq, Repr

/-- Why the model declines to step. -/
inductive Refusal where
  /-- Raised by `exec` for an instruction without a meaning; no arm does so in this model. Safe. -/
  | notModelled (mnemonic : String)
deriving DecidableEq, Repr

end Sys2Proof.Machine
end

