-- ==== Sys2Proof/Machine/Ops.lean ====
section
/-! DEFINITION. The named operations over memory, registers and the rest of the state, and taking a fault
(spec 00_scope.md R9, 10_state.md, 20_memory.md, 60_exceptions.md R210, 70_reset_and_hazards.md R242). -/
namespace Sys2Proof.Machine

/-! ### Memory as data -/

/-- The cell at an address; an unlisted one is 0 (20_memory.md R50, R51). -/
def Memory.read : Memory → Nat → Byte
  | [], _ => 0
  | (b, w) :: m, a => if a = b then w else Memory.read m a

/-- Set the cell at an address, keeping the list canonical (20_memory.md R51). -/
def Memory.write : Memory → Nat → Byte → Memory
  | [], a, v => if v = 0 then [] else [(a, v)]
  | (b, w) :: m, a, v =>
    if a < b then
      if v = 0 then (b, w) :: m else (a, v) :: (b, w) :: m
    else if a = b then
      if v = 0 then m else (a, v) :: m
    else
      (b, w) :: Memory.write m a v

/-- The canonical form: addresses strictly rise, lie in 0 to 255 (20_memory.md R50), and no entry is 0. -/
abbrev Memory.wf (m : Memory) : Prop :=
  m.Pairwise (fun c d => c.1 < d.1) ∧ ∀ c ∈ m, c.1 < 256 ∧ c.2 ≠ 0

/-- Write bytes at ascending addresses; a byte past address 255 is dropped. -/
def Memory.store : Memory → Nat → List Byte → Memory
  | m, _, [] => m
  | m, a, v :: vs => Memory.store (if a < 256 then m.write a v else m) (a + 1) vs

/-! ### Single-field updates -/

/-- General register `k`, in range (10_state.md R23, `get`). -/
def State.reg (s : State) (k : Fin 8) : Byte := s.regs[k]

/-- `x[k] <- v`, in range (10_state.md R23, `set`). -/
def State.setReg (s : State) (k : Fin 8) (v : Byte) : State := { s with regs := s.regs.set k v }

/-- `pc <- t` (00_scope.md R9). -/
def State.withPc (s : State) (t : Nat) : State := { s with pc := t }

/-- The increment of a handler that does not jump (10_state.md R25); it never wraps (R26). -/
def State.advance (s : State) (n : Nat) : State := s.withPc (s.pc + n)

/-- `FL <- v` (00_scope.md R9). -/
def State.withFl (s : State) (v : Byte) : State := { s with fl := v }

/-- `halt <- true` (00_scope.md R9). -/
def State.setHalt (s : State) : State := { s with halt := true }

/-- `Emit(v)`: append to the output sequence (00_scope.md R9, 10_state.md R32). -/
def State.emit (s : State) (v : Byte) : State := { s with out := s.out ++ [v] }

/-- Set the fault record (60_exceptions.md R210). -/
def State.withFault (s : State) (f : FaultRecord) : State := { s with fault := some f }

/-- Set one memory cell. -/
def State.setCell (s : State) (a : Nat) (v : Byte) : State := { s with mem := s.mem.write a v }

/-! ### The checked interfaces -/

/-- `MemRead(a, 1)` (00_scope.md R9, 20_memory.md R51, R52). -/
def memRead (s : State) (a : Nat) : Except FaultRecord Byte :=
  if a < 256 then .ok (s.mem.read a) else .error (.boundsFault .memAddress a)

/-- `MemWrite(a, 1, v)` (00_scope.md R9, 20_memory.md R51, R52). -/
def memWrite (s : State) (a : Nat) (v : Byte) : Except FaultRecord State :=
  if a < 256 then .ok (s.setCell a v) else .error (.boundsFault .memAddress a)

/-- The check of a register index; it is never masked (10_state.md R23). -/
def regIndex (i : Nat) : Except FaultRecord (Fin 8) :=
  if h : i < 8 then .ok ⟨i, h⟩ else .error (.boundsFault .regIndex i)

/-- `x[i]` with its index check: the Register File's `get` (10_state.md R23). -/
def regGet (s : State) (i : Nat) : Except FaultRecord Byte := do
  let k ← regIndex i
  .ok (s.reg k)

/-- `x[i] <- v` with its index check: the Register File's `set` (10_state.md R23). -/
def regSet (s : State) (i : Nat) (v : Byte) : Except FaultRecord State := do
  let k ← regIndex i
  .ok (s.setReg k v)

/-- The stack pointer less one; from 0 it faults and does not wrap (44_stack.md R160, 41_alu.md R136). -/
def spDecrement (sp : Byte) : Except FaultRecord Byte :=
  if sp = 0 then .error (.boundsFault .spRange (-1)) else .ok (sp - 1)

/-- The stack pointer plus one; from 255 it faults and does not wrap (44_stack.md R161, 41_alu.md R136). -/
def spIncrement (sp : Byte) : Except FaultRecord Byte :=
  if sp = 255 then .error (.boundsFault .spRange 256) else .ok (sp + 1)

/-! ### Faults -/

/-- Taking a fault (60_exceptions.md R210): the record is set and nothing else changes, so `pc` still addresses
the faulting instruction. The run state is then Faulted. There is no return from it (R212). -/
def takeFault (f : FaultRecord) (s : State) : Host.Outcome State Fault Refusal := .next (s.withFault f)

/-- How an instruction begun in `s` ends: in the state its handler reached, or by the fault it raised, of which
`s` sees only the record (00_scope.md R9, `raise`). -/
def complete (s : State) : Except FaultRecord State → Host.Outcome State Fault Refusal
  | .ok t => .next t
  | .error f => takeFault f s

/-! ### Run state and run-start -/

/-- The run state (10_state.md R30): Faulted if a fault is recorded; otherwise Halted if `halt`; otherwise Running. -/
def State.runState (s : State) : RunState :=
  match s.fault with
  | some _ => .faulted
  | none => if s.halt then .halted else .running

/-- Run-start (70_reset_and_hazards.md R242): the stack pointer is set to 0xF4 and `halt` to false, and nothing
else; the model's phase moves on (log 4). -/
def State.runStart (s : State) : State := { s.setReg spIndex spInit with halt := false, started := true }

end Sys2Proof.Machine
end

