-- ==== Sys2Proof/Machine/Flags.lean ====
section
/-! DEFINITION. The flags register: the three comparison values and the one test a jump makes (spec 10_state.md R27, R28). -/
namespace Sys2Proof.Machine

/-- E alone, bit 0 (10_state.md R27). -/
def flEqual : Byte := 0b00000001

/-- G alone, bit 1 (10_state.md R27). -/
def flGreater : Byte := 0b00000010

/-- L alone, bit 2 (10_state.md R27). -/
def flLess : Byte := 0b00000100

/-- The flags of a comparison of unsigned values (41_alu.md R133). That G means "first greater than second" is
DEDUCED (the spec's decision D23; log 19). -/
def compareFlags (va vb : Byte) : Byte :=
  if va = vb then flEqual
  else if va.toNat > vb.toNat then flGreater
  else flLess

/-- The bit test of JEQ and JNE: `FL[0]` (45_control_flow.md R171, R172). -/
def equalBit (fl : Byte) : Bool := fl.getLsbD 0

end Sys2Proof.Machine
end

