-- ==== Sys2Proof/Machine/Alu.lean ====
section
/-! DEFINITION. The ALU component (spec 41_alu.md R130 to R136). -/
namespace Sys2Proof.Machine

/-- The operation tags (41_alu.md R130). `other` is any tag without a meaning (R134); no handler passes one (log 17). -/
inductive AluOp where
  | add | mul | cmp
  | other (tag : Nat)
deriving DecidableEq, Repr

/-- The sum, wrapping at 8 bits (41_alu.md R131). -/
def aluAdd (va vb : Byte) : Byte := va + vb

/-- The low 8 bits of the product (41_alu.md R132). -/
def aluMul (va vb : Byte) : Byte := va * vb

/-- `ALU(op, a, b)`: `a` and `b` are register indices; both values are read before anything is written
(41_alu.md R130 to R134). An index fault comes before an unsupported tag (60_exceptions.md R209). -/
def alu (op : AluOp) (a b : Nat) (s : State) : Except FaultRecord State := do
  let i ← regIndex a
  let j ← regIndex b
  match op with
  | .add => .ok (s.setReg i (aluAdd (s.reg i) (s.reg j)))
  | .mul => .ok (s.setReg i (aluMul (s.reg i) (s.reg j)))
  | .cmp => .ok (s.withFl (compareFlags (s.reg i) (s.reg j)))
  | .other tag => .error (.unsupportedOperation tag)

end Sys2Proof.Machine
end

