-- ==== Sys2Proof/Machine/Operands.lean ====
section
/-! DEFINITION. How a handler obtains its operands (spec 00_scope.md R10, 30_encoding.md R85, 43_arithmetic_compare.md R153). -/
namespace Sys2Proof.Machine

/-- The operand byte at `pc + k`, which the decoder delivered as `v`: the fetch faults where that address lies past
255 (20_memory.md R52, 60_exceptions.md R202). A handler that needs no operand does not call this (log 12, 13). -/
def fetchOperand (s : State) (k : Nat) (v : Byte) : Except FaultRecord Byte :=
  if s.pc + k < 256 then .ok v else .error (.boundsFault .memAddress (s.pc + k : Nat))

/-- The register named by the first operand byte (format R; 30_encoding.md R81, R85). -/
def fetchReg (s : State) (r : Byte) : Except FaultRecord (Fin 8) := do
  let v ← fetchOperand s 1 r
  regIndex v.toNat

/-- The two registers of MUL, ADD or CMP (43_arithmetic_compare.md R153): in `fixed` mode the handler's own pair, the
operand bytes untouched; in `decoded` mode the operand bytes, both fetched before either is checked. -/
def aluPair (s : State) (pair : Nat × Nat) (a b : Byte) : Except FaultRecord (Nat × Nat) :=
  match s.cfg.aluOperands with
  | .fixed => .ok pair
  | .decoded => do
    let a ← fetchOperand s 1 a
    let b ← fetchOperand s 2 b
    let i ← regIndex a.toNat
    let j ← regIndex b.toNat
    .ok (i.val, j.val)

end Sys2Proof.Machine
end

