-- ==== Sys2Proof/Machine/Arithmetic.lean ====
section
/-! DEFINITION. MUL, ADD and CMP (spec 43_arithmetic_compare.md). -/
namespace Sys2Proof.Machine

/-- The shape the three handlers share (43_arithmetic_compare.md R153): the pair of the operand mode, the ALU, `pc + 3`. -/
def aluHandler (op : AluOp) (pair : Nat × Nat) (a b : Byte) (s : State) : Except FaultRecord State := do
  let p ← aluPair s pair a b
  let t ← alu op p.1 p.2 s
  .ok (t.advance 3)

/-- MUL (43_arithmetic_compare.md R150): `fixed` mode uses registers 0 and 1. -/
def execMul (a b : Byte) (s : State) : Host.Outcome State Fault Refusal :=
  complete s (aluHandler .mul (0, 1) a b s)

/-- ADD (43_arithmetic_compare.md R151): `fixed` mode uses register 0 twice. -/
def execAdd (a b : Byte) (s : State) : Host.Outcome State Fault Refusal :=
  complete s (aluHandler .add (0, 0) a b s)

/-- CMP (43_arithmetic_compare.md R152): `fixed` mode uses registers 0 and 1. -/
def execCmp (a b : Byte) (s : State) : Host.Outcome State Fault Refusal :=
  complete s (aluHandler .cmp (0, 1) a b s)

end Sys2Proof.Machine
end

