-- ==== Sys2Proof/Machine/ControlFlow.lean ====
section
/-! DEFINITION. HLT, JEQ, JNE and JMP (spec 45_control_flow.md). -/
namespace Sys2Proof.Machine

/-- A taken jump: `pc` becomes the full 8-bit value of the register and is not advanced (45_control_flow.md R174). -/
def jumpTo (r : Byte) (s : State) : Except FaultRecord State := do
  let k ← fetchReg s r
  .ok (s.withPc (s.reg k).toNat)

/-- HLT's handler (45_control_flow.md R170). -/
def handleHlt (s : State) : Except FaultRecord State := .ok (s.setHalt.advance 1)

/-- HLT (45_control_flow.md R170). -/
def execHlt (s : State) : Host.Outcome State Fault Refusal := complete s (handleHlt s)

/-- JEQ's handler (45_control_flow.md R171): not taken, the operand byte is not looked at. -/
def handleJeq (r : Byte) (s : State) : Except FaultRecord State :=
  if equalBit s.fl then jumpTo r s else .ok (s.advance 2)

/-- JEQ (45_control_flow.md R171). -/
def execJeq (r : Byte) (s : State) : Host.Outcome State Fault Refusal := complete s (handleJeq r s)

/-- JNE's handler (45_control_flow.md R172): not taken, the operand byte is not looked at. -/
def handleJne (r : Byte) (s : State) : Except FaultRecord State :=
  if equalBit s.fl then .ok (s.advance 2) else jumpTo r s

/-- JNE (45_control_flow.md R172). -/
def execJne (r : Byte) (s : State) : Host.Outcome State Fault Refusal := complete s (handleJne r s)

/-- JMP (45_control_flow.md R173). -/
def execJmp (r : Byte) (s : State) : Host.Outcome State Fault Refusal := complete s (jumpTo r s)

end Sys2Proof.Machine
end

