-- ==== Sys2Proof/Machine/DataMovement.lean ====
section
/-! DEFINITION. LDI and PRN (spec 42_data_movement.md). -/
namespace Sys2Proof.Machine

/-- LDI's handler (42_data_movement.md R140): both operand bytes are fetched before the index is checked. -/
def handleLdi (r imm : Byte) (s : State) : Except FaultRecord State := do
  let r ← fetchOperand s 1 r
  let imm ← fetchOperand s 2 imm
  let k ← regIndex r.toNat
  .ok ((s.setReg k imm).advance 3)

/-- LDI (42_data_movement.md R140). -/
def execLdi (r imm : Byte) (s : State) : Host.Outcome State Fault Refusal := complete s (handleLdi r imm s)

/-- PRN's handler (42_data_movement.md R141). -/
def handlePrn (r : Byte) (s : State) : Except FaultRecord State := do
  let k ← fetchReg s r
  .ok ((s.emit (s.reg k)).advance 2)

/-- PRN (42_data_movement.md R141). -/
def execPrn (r : Byte) (s : State) : Host.Outcome State Fault Refusal := complete s (handlePrn r s)

end Sys2Proof.Machine
end

