-- ==== Sys2Proof/Machine/Stack.lean ====
section
/-! DEFINITION. PUSH and POP (spec 44_stack.md). -/
namespace Sys2Proof.Machine

/-- PUSH's handler (44_stack.md R160): the stack pointer is decremented first, and the register is read after that, so
`PUSH R7` stores the decremented value at its own address. -/
def handlePush (r : Byte) (s : State) : Except FaultRecord State := do
  let k ← fetchReg s r
  let sp ← spDecrement (s.reg spIndex)
  let t := s.setReg spIndex sp
  let u ← memWrite t sp.toNat (t.reg k)
  .ok (u.advance 2)

/-- PUSH (44_stack.md R160). -/
def execPush (r : Byte) (s : State) : Host.Outcome State Fault Refusal := complete s (handlePush r s)

/-- POP's handler (44_stack.md R161): the register is loaded first and the stack pointer as it then stands is incremented, so
`POP R7` leaves the popped value plus one. -/
def handlePop (r : Byte) (s : State) : Except FaultRecord State := do
  let k ← fetchReg s r
  let v ← memRead s (s.reg spIndex).toNat
  let t := s.setReg k v
  let sp ← spIncrement (t.reg spIndex)
  .ok ((t.setReg spIndex sp).advance 2)

/-- POP (44_stack.md R161). -/
def execPop (r : Byte) (s : State) : Host.Outcome State Fault Refusal := complete s (handlePop r s)

end Sys2Proof.Machine
end

