-- ==== Sys2Proof/Syntax.lean ====
section
/-! DEFINITION. The eleven instructions with their operand bytes (spec 30_encoding.md R81, R83). -/
namespace Sys2Proof

/-- One constructor per row of spec/opcode_table.json, in its order. Operands are whole bytes used as read
(30_encoding.md R85): a register operand is any byte, and one of 8 or more faults when the handler uses it. -/
inductive Instr where
  /-- LDI: load the immediate `imm` into register `r` (42_data_movement.md R140). -/
  | ldi (r imm : Byte)
  /-- PRN: emit register `r` (42_data_movement.md R141). -/
  | prn (r : Byte)
  /-- HLT: halt (45_control_flow.md R170). -/
  | hlt
  /-- MUL: multiply (43_arithmetic_compare.md R150). -/
  | mul (a b : Byte)
  /-- ADD: add (43_arithmetic_compare.md R151). -/
  | add (a b : Byte)
  /-- PUSH: push register `r` (44_stack.md R160). -/
  | push (r : Byte)
  /-- POP: pop into register `r` (44_stack.md R161). -/
  | pop (r : Byte)
  /-- CMP: compare (43_arithmetic_compare.md R152). -/
  | cmp (a b : Byte)
  /-- JEQ: jump to the address in register `r` if E is set (45_control_flow.md R171). -/
  | jeq (r : Byte)
  /-- JNE: jump to the address in register `r` if E is clear (45_control_flow.md R172). -/
  | jne (r : Byte)
  /-- JMP: jump to the address in register `r` (45_control_flow.md R173). -/
  | jmp (r : Byte)
deriving DecidableEq, Repr

/-- The rows of the dispatch table by name (30_encoding.md R83). -/
inductive Mnemonic where
  | ldi | prn | hlt | mul | add | push | pop | cmp | jeq | jne | jmp
deriving DecidableEq, Repr

/-- The four formats (30_encoding.md R81). -/
inductive Format where
  /-- Opcode only. -/
  | z
  /-- Opcode, register index. -/
  | r
  /-- Opcode, register index, immediate. -/
  | ri
  /-- Opcode, two register indices. -/
  | rr
deriving DecidableEq, Repr

end Sys2Proof
end

