-- ==== Sys2Proof/Decode.lean ====
section
/-! DEFINITION. The dispatch table, the decoder (total, rejecting by name) and the encoder (spec 30_encoding.md). -/
namespace Sys2Proof

/-! ### The table of 30_encoding.md R83 -/

/-- Every row, in the table's order. -/
def Mnemonic.all : List Mnemonic := [.ldi, .prn, .hlt, .mul, .add, .push, .pop, .cmp, .jeq, .jne, .jmp]

/-- The opcode byte of a row (30_encoding.md R83, column "Parameter"). -/
def Opcodes.code (o : Opcodes) : Mnemonic → Byte
  | .ldi  => o.ldi
  | .prn  => o.prn
  | .hlt  => o.hlt
  | .mul  => o.mul
  | .add  => o.add
  | .push => o.push
  | .pop  => o.pop
  | .cmp  => o.cmp
  | .jeq  => o.jeq
  | .jne  => o.jne
  | .jmp  => o.jmp

/-- The format of a row (30_encoding.md R83, column "Format"). -/
def Mnemonic.format : Mnemonic → Format
  | .ldi  => .ri
  | .prn  => .r
  | .hlt  => .z
  | .mul  => .rr
  | .add  => .rr
  | .push => .r
  | .pop  => .r
  | .cmp  => .rr
  | .jeq  => .r
  | .jne  => .r
  | .jmp  => .r

/-- The bytes a format occupies, opcode included (30_encoding.md R81). -/
def Format.length : Format → Nat
  | .z  => 1
  | .r  => 2
  | .ri => 3
  | .rr => 3

/-- The length of an instruction, by its row alone (30_encoding.md R84). -/
def Mnemonic.length (m : Mnemonic) : Nat := m.format.length

/-- The opcode byte looked up whole in the table (30_encoding.md R82, 40_dispatch.md R112). -/
def lookup (c : Config) (op : Byte) : Option Mnemonic :=
  Mnemonic.all.find? fun m => c.opcodes.code m == op

/-! ### The decoder -/

/-- Why a byte list is no instruction. -/
inductive DecodeError where
  /-- The list is empty. -/
  | noBytes
  /-- The opcode byte is not in the table (30_encoding.md R87). -/
  | invalidOpcode (op : Byte)
  /-- The list ends inside this row's operand bytes. -/
  | truncated (m : Mnemonic)
deriving DecidableEq, Repr

/-- An instruction with one operand byte, and the bytes after it. -/
def oneOperand (m : Mnemonic) (mk : Byte → Instr) : List Byte → Except DecodeError (Instr × List Byte)
  | r :: rest => .ok (mk r, rest)
  | [] => .error (.truncated m)

/-- An instruction with two operand bytes, and the bytes after it. -/
def twoOperands (m : Mnemonic) (mk : Byte → Byte → Instr) : List Byte → Except DecodeError (Instr × List Byte)
  | a :: b :: rest => .ok (mk a b, rest)
  | _ => .error (.truncated m)

/-- The operand bytes of a row, by its format (30_encoding.md R81). -/
def decodeOperands (m : Mnemonic) (bytes : List Byte) : Except DecodeError (Instr × List Byte) :=
  match m with
  | .ldi  => twoOperands .ldi .ldi bytes
  | .prn  => oneOperand .prn .prn bytes
  | .hlt  => .ok (.hlt, bytes)
  | .mul  => twoOperands .mul .mul bytes
  | .add  => twoOperands .add .add bytes
  | .push => oneOperand .push .push bytes
  | .pop  => oneOperand .pop .pop bytes
  | .cmp  => twoOperands .cmp .cmp bytes
  | .jeq  => oneOperand .jeq .jeq bytes
  | .jne  => oneOperand .jne .jne bytes
  | .jmp  => oneOperand .jmp .jmp bytes

/-- The instruction at the head of a byte list and the bytes after it (30_encoding.md R80 to R85). -/
def decode (c : Config) : List Byte → Except DecodeError (Instr × List Byte)
  | [] => .error .noBytes
  | op :: rest =>
    match lookup c op with
    | none => .error (.invalidOpcode op)
    | some m => decodeOperands m rest

/-! ### The encoder -/

/-- The row an instruction belongs to. -/
def Instr.mnemonic : Instr → Mnemonic
  | .ldi _ _ => .ldi
  | .prn _   => .prn
  | .hlt     => .hlt
  | .mul _ _ => .mul
  | .add _ _ => .add
  | .push _  => .push
  | .pop _   => .pop
  | .cmp _ _ => .cmp
  | .jeq _   => .jeq
  | .jne _   => .jne
  | .jmp _   => .jmp

/-- The operand bytes at ascending addresses (30_encoding.md R81). -/
def Instr.operands : Instr → List Byte
  | .ldi r imm => [r, imm]
  | .prn r     => [r]
  | .hlt       => []
  | .mul a b   => [a, b]
  | .add a b   => [a, b]
  | .push r    => [r]
  | .pop r     => [r]
  | .cmp a b   => [a, b]
  | .jeq r     => [r]
  | .jne r     => [r]
  | .jmp r     => [r]

/-- The bytes of an instruction, the opcode first (30_encoding.md R80, R90). -/
def encode (c : Config) (i : Instr) : List Byte := c.opcodes.code i.mnemonic :: i.operands

/-! ### The host's words -/

/-- The three bytes of a table word: bit 0 is the least significant bit of the byte at the lowest address, and
every bit from `nbits` up is 0. -/
def tableBytes (nbits w : Nat) : List Byte :=
  let v := w % 2 ^ nbits
  [BitVec.ofNat 8 v, BitVec.ofNat 8 (v / 256), BitVec.ofNat 8 (v / 65536)]

/-- What the decoder reads from a table word under the default configuration of the table (log 1). -/
def decodeTableWord (nbits w : Nat) : Option Instr :=
  match decode Config.default (tableBytes nbits w) with
  | .ok (i, _) => some i
  | .error _ => none

end Sys2Proof
end

