-- ==== Sys2Proof/Machine/Fetch.lean ====
section
/-! DEFINITION. Fetching and decoding the instruction at `pc` (spec 40_dispatch.md R110 to R112). -/
namespace Sys2Proof.Machine

/-- The byte at `pc + k`; past address 255 there is none and `fill` stands for it. DESIGN CHOICE: no handler uses
that value, since its operand fetch faults first (log 12). -/
def windowByte (s : State) (fill : Byte) (k : Nat) : Byte :=
  if s.pc + k < 256 then s.mem.read (s.pc + k) else fill

/-- The three bytes from `pc` on, the longest an instruction can be (30_encoding.md R80). -/
def fetchWindow (s : State) : List Byte := [windowByte s 0 0, windowByte s 0 1, windowByte s 0 2]

/-- Fetch the opcode byte, look it up, and hand the handler its operand bytes (40_dispatch.md R110): an opcode fetch at
256 or more faults (R111), and an opcode not in the table is `InvalidOpcode(op, pc)` (R112). -/
def fetchInstr (s : State) : Except FaultRecord Instr := do
  let op ← memRead s s.pc
  match decode s.cfg (fetchWindow s) with
  | .ok (i, _) => .ok i
  | .error _ => .error (.invalidOpcode op s.pc)

end Sys2Proof.Machine
end

