-- ==== Sys2Proof/Machine/Step.lean ====
section
/-! DEFINITION. The step of the machine (spec 40_dispatch.md R110, R115; 70_reset_and_hazards.md R243). -/
namespace Sys2Proof.Machine

/-- One step. Before run-start it is run-start (70_reset_and_hazards.md R242, R243; log 4). Running, it fetches, decodes
and executes one instruction, or takes the fault that prevents it (40_dispatch.md R110). From Halted and Faulted there
is no step (R115), and the machine stops by name (log 7). -/
def step (s : State) : Host.Outcome State Fault Refusal :=
  if s.started then
    match s.fault with
    | some f => .fault (.afterFault f)
    | none =>
      if s.halt then .fault .afterHalt
      else
        match fetchInstr s with
        | .error f => takeFault f s
        | .ok i => exec i s
  else .next s.runStart

/-- The state with a table word stored where the next instruction is fetched and the machine Running. It stands for the
loader and run-start: before run-start, run-start is performed (70_reset_and_hazards.md R241 to R243; log 4, 22). -/
def State.withFetchWord (s : State) (nbits w : Nat) : State :=
  let t := if s.started then s else s.runStart
  { t with halt := false, fault := none, mem := t.mem.store t.pc (tableBytes nbits w) }

end Sys2Proof.Machine
end

