-- ==== Sys2Proof/Machine/Outside.lean ====
section
/-! DEFINITION. What the host does to the machine before a run and reads from it after (spec 20_memory.md R64,
60_exceptions.md R211, R213, 70_reset_and_hazards.md R241, R245). -/
namespace Sys2Proof.Machine

/-- Why a program is not loaded (60_exceptions.md R206). -/
inductive LoadError where
  /-- More than 256 bytes (20_memory.md R64, the spec's decision D16; log 20). -/
  | tooLong
  /-- Run-start has happened: the loader has finished before it (20_memory.md R64, 70_reset_and_hazards.md R245). -/
  | runStarted
  /-- A program has been loaded already: the host may not load twice (70_reset_and_hazards.md R245; log 20). -/
  | alreadyLoaded
deriving DecidableEq, Repr

/-- The loader: byte `i` of the program goes to cell `i`; it writes memory only (20_memory.md R64, 70_reset_and_hazards.md R241).
The host may load one program, before run-start (R245); that it has is the model's bit `loaded`, and a load the host may
not make is a load error (log 20). -/
def State.load (s : State) (prog : List Byte) : Except LoadError State :=
  if s.started then .error .runStarted
  else if s.loaded then .error .alreadyLoaded
  else if prog.length ≤ 256 then .ok { s with mem := s.mem.store 0 prog, loaded := true }
  else .error .tooLong

/-- What the host learns at the end of a run (60_exceptions.md R213). Success is given no number (D14). -/
inductive ExitIndication where
  | success
  | failure (code : Nat)
deriving DecidableEq, Repr

/-- Halted returns success, Faulted the failure code; a run that has not ended gives no indication (60_exceptions.md R213). -/
def State.exitIndication (s : State) : Option ExitIndication :=
  match s.runState with
  | .running => none
  | .halted => some .success
  | .faulted => some (.failure s.cfg.exitFailureCode)

/-- The two numbers of the diagnostic "Wrong instruction <opcode> at address <pc>" (60_exceptions.md R211); its text is
left to the host (D19; log 24). -/
def State.diagnostic (s : State) : Option (Byte × Nat) :=
  match s.fault with
  | some (.invalidOpcode op pc) => some (op, pc)
  | some (.boundsFault _ _) => none
  | some (.unsupportedOperation _) => none
  | none => none

/-- The printed lines without their line ends: each value in base 10 with no padding (10_state.md R32; log 15). -/
def State.outputLines (s : State) : List String := s.out.map fun v => Nat.repr v.toNat

end Sys2Proof.Machine
end

