-- ==== Sys2Proof/Safety.lean ====
section
/-! DEFINITION. The terms claims are made in: runs, legal fault records, the invariant, and the register access table. -/
namespace Sys2Proof.Machine

/-- `t` is reached from `s` in exactly `n` steps (40_dispatch.md R115). -/
def StepsTo : Nat → State → State → Prop
  | 0, s, t => s = t
  | n + 1, s, t => ∃ u, step s = .next u ∧ StepsTo n u t

/-- The handlers of the listed instructions, run one after another from `s`, reach `t`. -/
def Executes : List Instr → State → State → Prop
  | [], s, t => s = t
  | i :: is, s, t => ∃ u, exec i s = .next u ∧ Executes is u t

/-- The run from `s` reaches Halted (70_reset_and_hazards.md R246). -/
def EndsHalted (s : State) : Prop := ∃ n t, StepsTo n s t ∧ t.runState = .halted

/-- The run from `s` reaches Faulted (10_state.md R30). -/
def EndsFaulted (s : State) : Prop := ∃ n t, StepsTo n s t ∧ t.runState = .faulted

/-- The run from `s` never ends: after any number of steps it is still Running (40_dispatch.md R116). -/
def NeverEnds (s : State) : Prop := ∀ n, ∃ t, StepsTo n s t ∧ t.runState = .running

/-- A safe run: no state of it holds a fault. -/
def SafeRun (s : State) : Prop := ∀ n t, StepsTo n s t → t.fault = none

/-- Every cell of memory reads as before. -/
def SameMem (s t : State) : Prop := ∀ a, t.mem.read a = s.mem.read a

/-- Every register outside the list holds what it held. -/
def SameRegsBut (ks : List (Fin 8)) (s t : State) : Prop := ∀ k, k ∉ ks → t.reg k = s.reg k

/-- The configuration, the start-up bits, `halt` and `fault` are as before. -/
def SameControl (s t : State) : Prop :=
  t.cfg = s.cfg ∧ t.started = s.started ∧ t.loaded = s.loaded ∧ t.halt = s.halt ∧ t.fault = s.fault

/-- Run-start has happened and the run state is Running (10_state.md R30). -/
abbrev IsRunning (s : State) : Prop := s.started = true ∧ s.fault = none ∧ s.halt = false

/-- The information 60_exceptions.md R200 allows a fault record, in a state whose program counter is `pc`; the record of
an unsupported operation is unreachable (R205). -/
def FaultRecord.legal (pc : Nat) : FaultRecord → Prop
  | .invalidOpcode _ a => a = pc ∧ a ≤ 255
  | .boundsFault .memAddress v => 256 ≤ v ∧ v ≤ 258
  | .boundsFault .regIndex v => 8 ≤ v ∧ v ≤ 255
  | .boundsFault .spRange v => v = -1 ∨ v = 256
  | .unsupportedOperation _ => False

/-- What every reachable state satisfies. -/
structure Inv (s : State) : Prop where
  /-- The open parameters meet their constraints (00_scope.md R5). -/
  cfg_wf : s.cfg.wf
  /-- Memory is canonical and lies in the address space (20_memory.md R50). -/
  mem_wf : s.mem.wf
  /-- The reachable range of `pc` (10_state.md R26). -/
  pc_range : s.pc ≤ 258
  /-- The four values of `FL` (10_state.md R28). -/
  fl_legal : s.fl = 0b00000000 ∨ s.fl = 0b00000001 ∨ s.fl = 0b00000010 ∨ s.fl = 0b00000100
  /-- Halted and Faulted exclude each other (10_state.md R30). -/
  not_both : s.halt = true → s.fault = none
  /-- After HLT `pc` is one past the HLT byte, at most 256 (45_control_flow.md R170, 10_state.md R26). -/
  halt_pc : s.started = true → s.halt = true → 1 ≤ s.pc ∧ s.pc ≤ 256
  /-- A recorded fault is one of the closed list (60_exceptions.md R200). -/
  fault_legal : ∀ f, s.fault = some f → f.legal s.pc

/-- The registers a handler reads when it completes, from the table of 10_state.md R24. A register operand of 8 or more
names none; `Fin.ofNat` is only met under `r < 8`. -/
def registersRead (c : Config) (fl : Byte) : Instr → List (Fin 8)
  | .ldi _ _ => []
  | .prn r => [Fin.ofNat 8 r.toNat]
  | .hlt => []
  | .mul a b => if c.aluOperands = .fixed then [0, 1] else [Fin.ofNat 8 a.toNat, Fin.ofNat 8 b.toNat]
  | .add a b => if c.aluOperands = .fixed then [0] else [Fin.ofNat 8 a.toNat, Fin.ofNat 8 b.toNat]
  | .push r => [7, Fin.ofNat 8 r.toNat]
  | .pop _ => [7]
  | .cmp a b => if c.aluOperands = .fixed then [0, 1] else [Fin.ofNat 8 a.toNat, Fin.ofNat 8 b.toNat]
  | .jeq r => if fl.getLsbD 0 then [Fin.ofNat 8 r.toNat] else []
  | .jne r => if fl.getLsbD 0 then [] else [Fin.ofNat 8 r.toNat]
  | .jmp r => [Fin.ofNat 8 r.toNat]

/-- The registers a handler writes when it completes, from the table of 10_state.md R24. -/
def registersWritten (c : Config) : Instr → List (Fin 8)
  | .ldi r _ => [Fin.ofNat 8 r.toNat]
  | .prn _ => []
  | .hlt => []
  | .mul a _ => if c.aluOperands = .fixed then [0] else [Fin.ofNat 8 a.toNat]
  | .add a _ => if c.aluOperands = .fixed then [0] else [Fin.ofNat 8 a.toNat]
  | .push _ => [7]
  | .pop r => [Fin.ofNat 8 r.toNat, 7]
  | .cmp _ _ => []
  | .jeq _ => []
  | .jne _ => []
  | .jmp _ => []

end Sys2Proof.Machine
end

