-- ==== Sys2Proof/WellFormed.lean ====
section
/-! DEFINITION. Which operand values 30_encoding.md R81 calls legal. -/
namespace Sys2Proof

/-- A register index operand is legal when it is 0 to 7 (30_encoding.md R81, R85). -/
def Byte.isRegIndex (v : Byte) : Bool := decide (v.toNat < 8)

/-- The legal operand values of each format (30_encoding.md R81): `r` is 0 to 7; `imm` is any byte; `a` and `b`
are unrestricted in `fixed` mode, where they are ignored, and 0 to 7 in `decoded` mode (R86). An instruction
that is not well formed still decodes and runs; its handler faults where it uses the bad index. -/
def Instr.wf (c : Config) : Instr → Bool
  | .ldi r _ => r.isRegIndex
  | .prn r   => r.isRegIndex
  | .hlt     => true
  | .mul a b => c.aluOperands = .fixed || (a.isRegIndex && b.isRegIndex)
  | .add a b => c.aluOperands = .fixed || (a.isRegIndex && b.isRegIndex)
  | .push r  => r.isRegIndex
  | .pop r   => r.isRegIndex
  | .cmp a b => c.aluOperands = .fixed || (a.isRegIndex && b.isRegIndex)
  | .jeq r   => r.isRegIndex
  | .jne r   => r.isRegIndex
  | .jmp r   => r.isRegIndex

end Sys2Proof
end

