-- ==== Sys2Proof/Certificates/Slice0/Obligations.lean ====
section
/-! DEFINITION. The statements about the model, for the provers. -/
open Sys2Proof Sys2Proof.Machine

/-! ### Encoding -/

/-- Decode and encode agree: under every legal opcode assignment, every instruction, with every operand byte, decodes
from its encoding (spec 30_encoding.md sections 1 to 3). -/
def Obligations.DecodeOfEncode : Prop :=
  ∀ c : Config, c.wf → ∀ (i : Instr) (rest : List Byte), decode c (encode c i ++ rest) = .ok (i, rest)

/-- What the decoder consumed is exactly the encoding of what it answered: each byte list has one reading
(spec 30_encoding.md sections 1 to 3). -/
def Obligations.EncodeOfDecode : Prop :=
  ∀ (c : Config) (bytes : List Byte) (i : Instr) (rest : List Byte),
    decode c bytes = .ok (i, rest) → encode c i ++ rest = bytes

/-- Under every legal assignment 245 of the 256 opcode bytes are illegal, 0x00 among them, and the decoder refuses each
by name (spec 30_encoding.md section 4). -/
def Obligations.OpcodesOutsideTheTableAreIllegal : Prop :=
  ∀ c : Config, c.wf →
    (∀ (op : Byte) (rest : List Byte), op ∉ c.opcodes.values → decode c (op :: rest) = .error (.invalidOpcode op)) ∧
    ((List.range 256).filter fun n => decide (BitVec.ofNat 8 n ∉ c.opcodes.values)).length = 245 ∧
    (0 : Byte) ∉ c.opcodes.values

/-- 30_encoding.md R84: the length comes from the opcode byte alone, and serves only as the `pc` increment of a handler
that does not jump. -/
def Obligations.LengthFromTheOpcodeByteAlone : Prop :=
  (Mnemonic.hlt.length = 1 ∧
    (∀ m ∈ [Mnemonic.prn, .push, .pop, .jeq, .jne, .jmp], m.length = 2) ∧
    (∀ m ∈ [Mnemonic.ldi, .mul, .add, .cmp], m.length = 3)) ∧
  (∀ (c : Config) (op : Byte) (rest : List Byte) (i : Instr) (tail : List Byte),
    decode c (op :: rest) = .ok (i, tail) →
      lookup c op = some i.mnemonic ∧ (op :: rest).length = i.mnemonic.length + tail.length) ∧
  (∀ (i : Instr) (s t : State), s.fault = none → exec i s = .next t → t.fault = none →
    (i.mnemonic ≠ .jeq → i.mnemonic ≠ .jne → i.mnemonic ≠ .jmp → t.pc = s.pc + i.mnemonic.length) ∧
    (i.mnemonic = .jeq → equalBit s.fl = false → t.pc = s.pc + 2) ∧
    (i.mnemonic = .jne → equalBit s.fl = true → t.pc = s.pc + 2))

/-- Words written out from the encodings of spec 30_encoding.md R81 with the default opcode bytes of R83, which are
general knowledge (log 1): one of each format and family. -/
def Obligations.DefaultWordsDecode : Prop :=
  decode Config.default [0b10000010, 0b00000011, 0b11111111] = .ok (.ldi 3 255, []) ∧
  decode Config.default [0b01000111, 0b00000101] = .ok (.prn 5, []) ∧
  decode Config.default [0b10100010, 0b00000010, 0b00000011] = .ok (.mul 2 3, []) ∧
  decode Config.default [0b01000101, 0b00000111] = .ok (.push 7, []) ∧
  decode Config.default [0b00000001, 0b01000111] = .ok (.hlt, [0b01000111]) ∧
  decode Config.default [0b01010101, 0b11001000] = .ok (.jeq 200, []) ∧
  decode Config.default [0b00000000] = .error (.invalidOpcode 0)

/-! ### The step -/

/-- The step of a Running machine is the handler of the instruction its bytes at `pc` decode to; nothing is added around
it (spec 40_dispatch.md section 1). Where an operand byte lies past address 255 the window holds a 0 in its place, the
model's choice (log 12). -/
def Obligations.StepRunsTheDecodedInstruction : Prop :=
  ∀ (s : State) (i : Instr) (rest : List Byte),
    IsRunning s → s.pc < 256 → decode s.cfg (fetchWindow s) = .ok (i, rest) → step s = exec i s

/-- An operand byte that lies past address 255 has no influence: whatever is put in its place, the step is the same
(spec 20_memory.md section 2, 92_eei_decisions.md D4, D12; the window's fill is the model's choice, log 12). -/
def Obligations.OperandBytesPastTheTopNeverMatter : Prop :=
  ∀ (s : State) (b₁ b₂ : Byte) (i : Instr) (rest : List Byte),
    IsRunning s → s.pc < 256 →
    (s.pc + 1 < 256 → b₁ = s.mem.read (s.pc + 1)) →
    (s.pc + 2 < 256 → b₂ = s.mem.read (s.pc + 2)) →
    decode s.cfg [s.mem.read s.pc, b₁, b₂] = .ok (i, rest) → step s = exec i s

/-- The opcode byte is matched whole; found, its handler runs; not found, `InvalidOpcode` is recorded with the byte and its
address, nothing else changes, the host can print the two numbers and learns of a failure by a non-zero code, and no further
instruction is executed (spec 40_dispatch.md sections 1 and 2). That the machine then stops by the name `afterFault` is the
model's (log 7). -/
def Obligations.DispatchByTheWholeOpcodeByte : Prop :=
  ∀ s : State, IsRunning s → s.pc < 256 →
    (∀ m, lookup s.cfg (s.mem.read s.pc) = some m →
      s.cfg.opcodes.code m = s.mem.read s.pc ∧ ∃ i : Instr, i.mnemonic = m ∧ step s = exec i s) ∧
    (s.cfg.wf → ∀ m, s.cfg.opcodes.code m = s.mem.read s.pc → lookup s.cfg (s.mem.read s.pc) = some m) ∧
    ((∀ m, s.cfg.opcodes.code m ≠ s.mem.read s.pc) →
      ∃ t, step s = .next t ∧ t = { s with fault := some (.invalidOpcode (s.mem.read s.pc) s.pc) } ∧
        t.diagnostic = some (s.mem.read s.pc, s.pc) ∧ t.exitIndication = some (.failure s.cfg.exitFailureCode) ∧
        (s.cfg.wf → s.cfg.exitFailureCode ≠ 0) ∧ step t = .fault (.afterFault (.invalidOpcode (s.mem.read s.pc) s.pc)))

/-- A fetch at 256 or more faults before anything is decoded (spec 40_dispatch.md section 1, 92_eei_decisions.md D7). -/
def Obligations.FetchPastTheTopFaults : Prop :=
  ∀ s : State, IsRunning s → 256 ≤ s.pc →
    step s = .next { s with fault := some (.boundsFault .memAddress s.pc) }

/-- From Halted and from Faulted there is no step, and the model stops by name (spec 40_dispatch.md section 2; the two
names are the model's, log 7). -/
def Obligations.TerminalStatesHaveNoStep : Prop :=
  ∀ s : State, s.started = true →
    (∀ f, s.fault = some f → step s = .fault (.afterFault f)) ∧
    (s.fault = none → s.halt = true → step s = .fault .afterHalt)

/-- A Running machine always has a next state, and no handler stops or refuses (spec 40_dispatch.md section 2,
93_implementation_defined.md U11). -/
def Obligations.RunningMachinesAlwaysStep : Prop :=
  (∀ (i : Instr) (s : State), ∃ t, exec i s = .next t) ∧
  (∀ s : State, IsRunning s → ∃ t, step s = .next t)

/-! ### Start-up -/

/-- The values after construction (spec 70_reset_and_hazards.md section 1, 10_state.md section 8). `pc` and `FL` are 0 by
the spec's decisions D9 and D8 (log 5, 6); that run-start is still to come and that nothing is loaded are the model's
start-up bits (log 4, 20). -/
def Obligations.ConstructionValues : Prop :=
  (∀ a, State.reset.mem.read a = 0) ∧ (∀ k, State.reset.reg k = 0) ∧ State.reset.pc = 0 ∧ State.reset.fl = 0 ∧
  State.reset.halt = false ∧ State.reset.fault = none ∧ State.reset.out = [] ∧ State.reset.started = false ∧
  State.reset.loaded = false

/-- The loader puts byte `i` in cell `i`, leaves every other cell 0 and writes memory only (spec 20_memory.md section 6,
70_reset_and_hazards.md section 1). That more than 256 bytes are refused is the spec's decision D16 (log 20). The bit
`loaded`, and that a load after run-start, which the host may not make, answers an error, are the model's (log 20). -/
def Obligations.LoaderFillsMemoryFromZero : Prop :=
  ∀ prog : List Byte,
    (prog.length ≤ 256 →
      ∃ s, State.reset.load prog = .ok s ∧ (∀ a, a < 256 → s.mem.read a = prog.getD a 0) ∧ s.mem.wf ∧
        s = { State.reset with mem := s.mem, loaded := true }) ∧
    (256 < prog.length → State.reset.load prog = .error .tooLong) ∧
    (∀ s : State, s.started = true → s.load prog = .error .runStarted)

/-- Run-start sets the stack pointer to 0xF4 and `halt` to false and nothing else, so the first instruction of every run sees
`x[7]` = 0xF4 and `x[0..6]` = 0 (spec 70_reset_and_hazards.md section 1). That run-start is a step of its own, from
`started` = false, and that this bit moves on are the model's (log 4). -/
def Obligations.RunStartSetsTheStackPointer : Prop :=
  (∀ s : State, s.started = false →
    ∃ t, step s = .next t ∧ t.started = true ∧ t.reg 7 = 0xF4 ∧ t.halt = false ∧ SameRegsBut [7] s t ∧ SameMem s t ∧
      t.cfg = s.cfg ∧ t.loaded = s.loaded ∧ t.pc = s.pc ∧ t.fl = s.fl ∧ t.fault = s.fault ∧ t.out = s.out) ∧
  (∀ (prog : List Byte) (s : State), State.reset.load prog = .ok s →
    ∃ t, step s = .next t ∧ t.reg 7 = 0xF4 ∧ ∀ k, k ≠ 7 → t.reg k = 0)

/-! ### Components -/

/-- 20_memory.md R51: a read returns the last value written to the cell by a write or the loader, or 0 if none; a read
changes nothing, and a write changes one cell and no other state. -/
def Obligations.MemoryReadsTheLastWrite : Prop :=
  (∀ a, a < 256 → memRead State.reset a = .ok 0) ∧
  (∀ (prog : List Byte) (s : State), State.reset.load prog = .ok s →
    ∀ a, a < 256 → memRead s a = .ok (prog.getD a 0)) ∧
  (∀ (s : State) (a : Nat) (v : Byte), s.mem.wf → a < 256 →
    ∃ t, memWrite s a v = .ok t ∧ memRead t a = .ok v ∧ (∀ b, b < 256 → b ≠ a → memRead t b = memRead s b) ∧
      t = { s with mem := t.mem })

/-- The Register File's two operations and their index check (spec 10_state.md section 2, 92_eei_decisions.md D5). -/
def Obligations.RegisterFileInterface : Prop :=
  (∀ (s : State) (k : Fin 8) (v : Byte), regGet s k.val = .ok (s.reg k) ∧
    ∃ t, regSet s k.val v = .ok t ∧ t.reg k = v ∧ SameRegsBut [k] s t ∧ t = { s with regs := t.regs }) ∧
  (∀ (s : State) (i : Nat) (v : Byte), 8 ≤ i →
    regGet s i = .error (.boundsFault .regIndex i) ∧ regSet s i v = .error (.boundsFault .regIndex i))

/-- 41_alu.md R131: ADD writes the sum mod 256 to register a and changes nothing else. -/
def Obligations.AluAddWraps : Prop :=
  ∀ (s : State) (a b : Fin 8),
    ∃ t, alu .add a.val b.val s = .ok t ∧ (t.reg a).toNat = ((s.reg a).toNat + (s.reg b).toNat) % 256 ∧
      (a = b → (t.reg a).toNat = (2 * (s.reg a).toNat) % 256) ∧
      SameRegsBut [a] s t ∧ t = { s with regs := t.regs }

/-- 41_alu.md R132: MUL writes the product mod 256 to register a and changes nothing else. -/
def Obligations.AluMulKeepsTheLowByte : Prop :=
  ∀ (s : State) (a b : Fin 8),
    ∃ t, alu .mul a.val b.val s = .ok t ∧ (t.reg a).toNat = ((s.reg a).toNat * (s.reg b).toNat) % 256 ∧
      (a = b → (t.reg a).toNat = ((s.reg a).toNat * (s.reg a).toNat) % 256) ∧
      SameRegsBut [a] s t ∧ t = { s with regs := t.regs }

/-- CMP compares unsigned and replaces the whole of `FL` by exactly one of E, G, L (spec 41_alu.md section 1). That
"greater" means the first operand is the greater is the spec's decision D23 (log 19). -/
def Obligations.AluCompareSetsOneFlag : Prop :=
  ∀ (s : State) (a b : Fin 8),
    ∃ t, alu .cmp a.val b.val s = .ok t ∧
      ((s.reg a).toNat = (s.reg b).toNat → t.fl = 0b00000001) ∧
      ((s.reg b).toNat < (s.reg a).toNat → t.fl = 0b00000010) ∧
      ((s.reg a).toNat < (s.reg b).toNat → t.fl = 0b00000100) ∧
      t = { s with fl := t.fl }

/-- An unsupported ALU tag fails and writes nothing, and no instruction ever causes it (spec 41_alu.md section 1,
92_eei_decisions.md D24; the tag's type is the model's, log 17). -/
def Obligations.UnsupportedOperationIsUnreachable : Prop :=
  (∀ (s : State) (tag : Nat) (a b : Fin 8), alu (.other tag) a.val b.val s = .error (.unsupportedOperation tag)) ∧
  (∀ (s t : State) (tag : Nat), step s = .next t → t.fault = some (.unsupportedOperation tag) → t.fault = s.fault)

/-- 41_alu.md R135: ADD and MUL change one register and never `FL`, CMP changes `FL` and no register; a jump condition
survives any number of other instructions until the next CMP. -/
def Obligations.FlagsSurviveUntilTheNextCmp : Prop :=
  (∀ (op : AluOp) (a b : Fin 8) (s t : State), (op = .add ∨ op = .mul) → alu op a.val b.val s = .ok t →
    SameRegsBut [a] s t ∧ t = { s with regs := t.regs }) ∧
  (∀ (a b : Fin 8) (s t : State), alu .cmp a.val b.val s = .ok t → t = { s with fl := t.fl }) ∧
  (∀ (l : List Instr) (s t : State), (∀ i ∈ l, i.mnemonic ≠ .cmp) → Executes l s t → t.fl = s.fl)

/-! ### What each instruction does -/

/-- LDI: the register holds the immediate, `pc` advances by 3, nothing else changes (spec 42_data_movement.md, LDI). -/
def Obligations.LdiLoadsTheImmediate : Prop :=
  ∀ (s : State) (r imm : Byte) (k : Fin 8), r.toNat = k.val → s.pc + 2 < 256 →
    ∃ t, exec (.ldi r imm) s = .next t ∧ t.reg k = imm ∧ t.pc = s.pc + 3 ∧
      SameRegsBut [k] s t ∧ SameMem s t ∧ SameControl s t ∧ t.fl = s.fl ∧ t.out = s.out

/-- PRN: the register's value is appended to `out`, `pc` advances by 2, nothing else changes
(spec 42_data_movement.md, PRN). -/
def Obligations.PrnEmitsTheRegister : Prop :=
  ∀ (s : State) (r : Byte) (k : Fin 8), r.toNat = k.val → s.pc + 1 < 256 →
    ∃ t, exec (.prn r) s = .next t ∧ t.out = s.out ++ [s.reg k] ∧ t.pc = s.pc + 2 ∧
      SameRegsBut [] s t ∧ SameMem s t ∧ SameControl s t ∧ t.fl = s.fl

/-- HLT is one byte; at any address it sets `halt`, advances `pc` by 1, changes nothing else and raises no fault; the run is
then Halted, which returns success, and nothing is executed after it (spec 45_control_flow.md, HLT). That the machine then
stops by the name `afterHalt` is the model's (log 7). -/
def Obligations.HltHaltsTheRun : Prop :=
  (∀ c : Config, encode c .hlt = [c.opcodes.hlt]) ∧
  (∀ s : State, ∃ t, exec .hlt s = .next t ∧ t.halt = true ∧ t.pc = s.pc + 1 ∧ SameRegsBut [] s t ∧ SameMem s t ∧
    t.fl = s.fl ∧ t.out = s.out ∧ t.fault = s.fault ∧ t.cfg = s.cfg ∧ t.started = s.started ∧
    t.loaded = s.loaded) ∧
  (∀ s : State, IsRunning s → s.cfg.wf → s.pc < 256 → s.mem.read s.pc = s.cfg.opcodes.hlt →
    ∃ t, step s = .next t ∧ exec .hlt s = .next t ∧ t.runState = .halted ∧ t.exitIndication = some .success ∧
      step t = .fault .afterHalt)

/-- MUL and ADD in `fixed` mode, at every address and with any operand bytes: MUL multiplies registers 0 and 1 into 0, ADD
doubles register 0; `pc` advances by 3, nothing else changes (spec 43_arithmetic_compare.md; the mode is open, D2, log 2). -/
def Obligations.MulAndAddOnFixedRegisters : Prop :=
  ∀ (s : State) (a b : Byte), s.cfg.aluOperands = .fixed →
    (∃ t, exec (.mul a b) s = .next t ∧ (t.reg 0).toNat = ((s.reg 0).toNat * (s.reg 1).toNat) % 256 ∧ t.pc = s.pc + 3 ∧
      SameRegsBut [0] s t ∧ SameMem s t ∧ SameControl s t ∧ t.fl = s.fl ∧ t.out = s.out) ∧
    (∃ t, exec (.add a b) s = .next t ∧ (t.reg 0).toNat = ((s.reg 0).toNat + (s.reg 0).toNat) % 256 ∧ t.pc = s.pc + 3 ∧
      SameRegsBut [0] s t ∧ SameMem s t ∧ SameControl s t ∧ t.fl = s.fl ∧ t.out = s.out)

/-- MUL and ADD in `decoded` mode: the operand bytes name the registers, the first is the destination
(spec 43_arithmetic_compare.md; the mode is open, D2, log 2). -/
def Obligations.MulAndAddOnDecodedRegisters : Prop :=
  ∀ (s : State) (a b : Byte) (i j : Fin 8), s.cfg.aluOperands = .decoded → a.toNat = i.val → b.toNat = j.val →
    s.pc + 2 < 256 →
    (∃ t, exec (.mul a b) s = .next t ∧ (t.reg i).toNat = ((s.reg i).toNat * (s.reg j).toNat) % 256 ∧ t.pc = s.pc + 3 ∧
      SameRegsBut [i] s t ∧ SameMem s t ∧ SameControl s t ∧ t.fl = s.fl ∧ t.out = s.out) ∧
    (∃ t, exec (.add a b) s = .next t ∧ (t.reg i).toNat = ((s.reg i).toNat + (s.reg j).toNat) % 256 ∧ t.pc = s.pc + 3 ∧
      SameRegsBut [i] s t ∧ SameMem s t ∧ SameControl s t ∧ t.fl = s.fl ∧ t.out = s.out)

/-- CMP in both modes: `FL` becomes exactly one of E, G, L by the unsigned comparison, `pc` advances by 3, nothing else
changes (spec 43_arithmetic_compare.md; the direction of "greater" is the spec's decision D23, log 19). -/
def Obligations.CmpComparesUnsigned : Prop :=
  ∀ (s : State) (a b : Byte) (i j : Fin 8),
    (s.cfg.aluOperands = .fixed ∧ i = 0 ∧ j = 1) ∨
      (s.cfg.aluOperands = .decoded ∧ a.toNat = i.val ∧ b.toNat = j.val ∧ s.pc + 2 < 256) →
    ∃ t, exec (.cmp a b) s = .next t ∧ t.pc = s.pc + 3 ∧
      ((s.reg i).toNat = (s.reg j).toNat → t.fl = 0b00000001) ∧
      ((s.reg j).toNat < (s.reg i).toNat → t.fl = 0b00000010) ∧
      ((s.reg i).toNat < (s.reg j).toNat → t.fl = 0b00000100) ∧
      SameRegsBut [] s t ∧ SameMem s t ∧ SameControl s t ∧ t.out = s.out

/-- PUSH: the stack pointer is decremented, the register as it then stands is stored at the new stack pointer, `pc`
advances by 2, nothing else changes (spec 44_stack.md, PUSH). `mem.wf` is the canonical form every step keeps. -/
def Obligations.PushStoresAtTheNewStackPointer : Prop :=
  ∀ (s : State) (r : Byte) (k : Fin 8), r.toNat = k.val → s.pc + 1 < 256 → s.reg 7 ≠ 0 → s.mem.wf →
    ∃ t, exec (.push r) s = .next t ∧ (t.reg 7).toNat = (s.reg 7).toNat - 1 ∧
      t.mem.read ((s.reg 7).toNat - 1) = (if k = 7 then s.reg 7 - 1 else s.reg k) ∧
      (∀ a, a ≠ (s.reg 7).toNat - 1 → t.mem.read a = s.mem.read a) ∧ t.pc = s.pc + 2 ∧
      SameRegsBut [7] s t ∧ SameControl s t ∧ t.fl = s.fl ∧ t.out = s.out

/-- POP: the register is loaded from the old stack pointer, then the stack pointer as it stands is incremented (so
`POP R7` leaves the popped value plus one), `pc` advances by 2, nothing else changes (spec 44_stack.md, POP). -/
def Obligations.PopLoadsFromTheOldStackPointer : Prop :=
  ∀ (s : State) (r : Byte) (k : Fin 8), r.toNat = k.val → s.pc + 1 < 256 →
    (k ≠ 7 → s.reg 7 ≠ 255) → (k = 7 → s.mem.read (s.reg 7).toNat ≠ 255) →
    ∃ t, exec (.pop r) s = .next t ∧
      (k ≠ 7 → t.reg k = s.mem.read (s.reg 7).toNat ∧ (t.reg 7).toNat = (s.reg 7).toNat + 1) ∧
      (k = 7 → (t.reg 7).toNat = (s.mem.read (s.reg 7).toNat).toNat + 1) ∧ t.pc = s.pc + 2 ∧
      SameRegsBut [k, 7] s t ∧ SameMem s t ∧ SameControl s t ∧ t.fl = s.fl ∧ t.out = s.out

/-- JMP: `pc` becomes the register's value and nothing else changes (spec 45_control_flow.md, JMP). -/
def Obligations.JmpAlwaysJumps : Prop :=
  ∀ (s : State) (r : Byte) (k : Fin 8), r.toNat = k.val → s.pc + 1 < 256 →
    ∃ t, exec (.jmp r) s = .next t ∧ t.pc = (s.reg k).toNat ∧
      SameRegsBut [] s t ∧ SameMem s t ∧ SameControl s t ∧ t.fl = s.fl ∧ t.out = s.out

/-- JEQ: taken exactly when bit 0 of `FL` is set; not taken it advances by 2 whatever its operand byte and address, and
nothing else changes either way (spec 45_control_flow.md, JEQ; that the operand is then not read is decision D12, log 13). -/
def Obligations.JeqJumpsIffEqual : Prop :=
  (∀ (s : State) (r : Byte) (k : Fin 8), s.fl.getLsbD 0 = true → r.toNat = k.val → s.pc + 1 < 256 →
    ∃ t, exec (.jeq r) s = .next t ∧ t.pc = (s.reg k).toNat ∧
      SameRegsBut [] s t ∧ SameMem s t ∧ SameControl s t ∧ t.fl = s.fl ∧ t.out = s.out) ∧
  (∀ (s : State) (r : Byte), s.fl.getLsbD 0 = false →
    ∃ t, exec (.jeq r) s = .next t ∧ t.pc = s.pc + 2 ∧
      SameRegsBut [] s t ∧ SameMem s t ∧ SameControl s t ∧ t.fl = s.fl ∧ t.out = s.out)

/-- JNE: taken exactly when bit 0 of `FL` is clear; not taken it advances by 2 whatever its operand byte and address, and
nothing else changes either way (spec 45_control_flow.md, JNE; that the operand is then not read is decision D12, log 13). -/
def Obligations.JneJumpsIffNotEqual : Prop :=
  (∀ (s : State) (r : Byte) (k : Fin 8), s.fl.getLsbD 0 = false → r.toNat = k.val → s.pc + 1 < 256 →
    ∃ t, exec (.jne r) s = .next t ∧ t.pc = (s.reg k).toNat ∧
      SameRegsBut [] s t ∧ SameMem s t ∧ SameControl s t ∧ t.fl = s.fl ∧ t.out = s.out) ∧
  (∀ (s : State) (r : Byte), s.fl.getLsbD 0 = true →
    ∃ t, exec (.jne r) s = .next t ∧ t.pc = s.pc + 2 ∧
      SameRegsBut [] s t ∧ SameMem s t ∧ SameControl s t ∧ t.fl = s.fl ∧ t.out = s.out)

/-- On every state, bad operands included, one of JEQ and JNE does what JMP does and the other only advances by 2
(spec 45_control_flow.md, JNE: "exact complements"). That the jump not taken does so whatever its operand byte and address,
254 and 255 included, is the spec's decision D12 (log 13). -/
def Obligations.JeqAndJneAreComplements : Prop :=
  ∀ (s : State) (r : Byte),
    (s.fl.getLsbD 0 = true → exec (.jeq r) s = exec (.jmp r) s ∧ exec (.jne r) s = .next { s with pc := s.pc + 2 }) ∧
    (s.fl.getLsbD 0 = false → exec (.jne r) s = exec (.jmp r) s ∧ exec (.jeq r) s = .next { s with pc := s.pc + 2 })

/-! ### Where an instruction faults -/

/-- The instructions with one register operand fault on an operand byte past address 255, then on an index of 8 or more,
and change nothing but the record (spec 60_exceptions.md sections 1, 3 and 4; the spec's decisions D4, D5, D10, D11). -/
def Obligations.OneOperandFaults : Prop :=
  ∀ (s : State) (r : Byte) (i : Instr),
    i = .prn r ∨ i = .push r ∨ i = .pop r ∨ i = .jmp r ∨ (i = .jeq r ∧ s.fl.getLsbD 0 = true) ∨
      (i = .jne r ∧ s.fl.getLsbD 0 = false) →
    (256 ≤ s.pc + 1 → exec i s = .next { s with fault := some (.boundsFault .memAddress (s.pc + 1 : Nat)) }) ∧
    (s.pc + 1 < 256 → 8 ≤ r.toNat → exec i s = .next { s with fault := some (.boundsFault .regIndex r.toNat) })

/-- LDI fetches both operand bytes before it checks the index (spec 42_data_movement.md, LDI; 60_exceptions.md section 3;
the spec's decisions D4, D5, D10, D11). -/
def Obligations.LdiFaults : Prop :=
  ∀ (s : State) (r imm : Byte),
    (256 ≤ s.pc + 1 → exec (.ldi r imm) s = .next { s with fault := some (.boundsFault .memAddress (s.pc + 1 : Nat)) }) ∧
    (s.pc + 1 < 256 → 256 ≤ s.pc + 2 →
      exec (.ldi r imm) s = .next { s with fault := some (.boundsFault .memAddress (s.pc + 2 : Nat)) }) ∧
    (s.pc + 2 < 256 → 8 ≤ r.toNat →
      exec (.ldi r imm) s = .next { s with fault := some (.boundsFault .regIndex r.toNat) })

/-- MUL, ADD and CMP in `decoded` mode: both operand bytes are fetched, then the first index is checked, then the second
(spec 43_arithmetic_compare.md section 1, 60_exceptions.md section 3; the spec's decisions D2, D4, D5, D10, D11). -/
def Obligations.DecodedAluFaults : Prop :=
  ∀ (s : State) (a b : Byte) (i : Instr), s.cfg.aluOperands = .decoded → i = .mul a b ∨ i = .add a b ∨ i = .cmp a b →
    (256 ≤ s.pc + 1 → exec i s = .next { s with fault := some (.boundsFault .memAddress (s.pc + 1 : Nat)) }) ∧
    (s.pc + 1 < 256 → 256 ≤ s.pc + 2 →
      exec i s = .next { s with fault := some (.boundsFault .memAddress (s.pc + 2 : Nat)) }) ∧
    (s.pc + 2 < 256 → 8 ≤ a.toNat → exec i s = .next { s with fault := some (.boundsFault .regIndex a.toNat) }) ∧
    (s.pc + 2 < 256 → a.toNat < 8 → 8 ≤ b.toNat →
      exec i s = .next { s with fault := some (.boundsFault .regIndex b.toNat) })

/-- The stack pointer does not wrap: PUSH at 0 and a POP that would reach 256 fault and change nothing but the record
(spec 44_stack.md; the spec's decisions D6, D10). -/
def Obligations.StackPointerNeverWraps : Prop :=
  ∀ (s : State) (r : Byte) (k : Fin 8), r.toNat = k.val → s.pc + 1 < 256 →
    (s.reg 7 = 0 → exec (.push r) s = .next { s with fault := some (.boundsFault .spRange (-1)) }) ∧
    (k ≠ 7 → s.reg 7 = 255 → exec (.pop r) s = .next { s with fault := some (.boundsFault .spRange 256) }) ∧
    (k = 7 → s.mem.read (s.reg 7).toNat = 255 →
      exec (.pop r) s = .next { s with fault := some (.boundsFault .spRange 256) })

/-- Faults are precise: a step from Running that ends Faulted has changed the record and nothing else
(spec 60_exceptions.md section 4; the spec's decision D10, log 8). -/
def Obligations.FaultsArePrecise : Prop :=
  ∀ (s t : State) (f : FaultRecord), IsRunning s → step s = .next t → t.fault = some f → t = { s with fault := some f }

/-- An instruction whose register operands are legal never faults on a register index, in either mode
(spec 70_reset_and_hazards.md section 2 (c), 30_encoding.md section 1; the check itself is the spec's decision D5). -/
def Obligations.WellFormedInstructionsNeverFaultOnAnIndex : Prop :=
  ∀ (i : Instr) (s t : State) (v : Int), i.wf s.cfg = true → s.fault = none → exec i s = .next t →
    t.fault ≠ some (.boundsFault .regIndex v)

/-! ### Operand modes -/

/-- In `fixed` mode the operand bytes of MUL, ADD and CMP have no influence and cause no fault, at any address
(spec 30_encoding.md section 3; that they are not read is decision D12, log 13). -/
def Obligations.FixedModeIgnoresOperandBytes : Prop :=
  ∀ (s : State) (a b a' b' : Byte), s.cfg.aluOperands = .fixed →
    (exec (.mul a b) s = exec (.mul a' b') s ∧ exec (.add a b) s = exec (.add a' b') s ∧
      exec (.cmp a b) s = exec (.cmp a' b') s) ∧
    (∀ i ∈ [Instr.mul a b, .add a b, .cmp a b], ∃ t, exec i s = .next t ∧ t.fault = s.fault)

/-- An instruction whose operand bytes name the registers the fixed handler uses does the same in both modes, below
address 254 (spec 43_arithmetic_compare.md section 1). -/
def Obligations.OperandModesAgree : Prop :=
  ∀ (s t : State) (i : Instr), i ∈ [Instr.mul 0 1, .add 0 0, .cmp 0 1] → s.pc + 2 < 256 →
    s.cfg.aluOperands = .fixed → exec i s = .next t →
    exec i { s with cfg := { s.cfg with aluOperands := .decoded } } =
      .next { t with cfg := { t.cfg with aluOperands := .decoded } }

/-! ### Whole-machine rules -/

/-- HLT and only HLT sets `halt`, nothing clears it, no instruction reads it, it is false when a run starts, and the loop
stops on it (spec 10_state.md section 5). That run-start is a step from `started` = false is the model's choice (log 4), and
so is the name `afterHalt` of the stop (log 7). -/
def Obligations.HaltIsSetOnlyByHlt : Prop :=
  (∀ (i : Instr) (s t : State), exec i s = .next t →
    (i = .hlt → t.halt = true) ∧ (i ≠ .hlt → t.halt = s.halt)) ∧
  (∀ (i : Instr) (s t : State) (b : Bool), exec i s = .next t →
    ∃ t', exec i { s with halt := b } = .next t' ∧ { t' with halt := false } = { t with halt := false }) ∧
  (∀ s t : State, s.started = false → step s = .next t → t.halt = false) ∧
  (∀ s : State, s.started = true → s.fault = none → s.halt = true → step s = .fault .afterHalt)

/-- PUSH is the only instruction that writes memory, and only at the new stack pointer; POP is the only one that reads
data memory, and only at the old stack pointer (spec 20_memory.md section 6). -/
def Obligations.OnlyPushWritesAndOnlyPopReadsData : Prop :=
  (∀ (i : Instr) (s t : State), s.mem.wf → exec i s = .next t →
    (i.mnemonic ≠ .push → SameMem s t) ∧
    (i.mnemonic = .push → ∀ a, a ≠ (s.reg 7).toNat - 1 → t.mem.read a = s.mem.read a)) ∧
  (∀ (i : Instr) (s t : State) (m : Memory), i.mnemonic ≠ .push → exec i s = .next t →
    (i.mnemonic = .pop → m.read (s.reg 7).toNat = s.mem.read (s.reg 7).toNat) →
    exec i { s with mem := m } = .next { t with mem := m })

/-- The output only grows at its end: by the value PRN emits, by nothing else; so along a run every earlier output stands
(spec 10_state.md section 6). -/
def Obligations.OutputOnlyGrows : Prop :=
  (∀ (i : Instr) (s t : State), exec i s = .next t →
    (i.mnemonic ≠ .prn → t.out = s.out) ∧ (i.mnemonic = .prn → t.out = s.out ∨ ∃ k, t.out = s.out ++ [s.reg k])) ∧
  (∀ (n : Nat) (s t : State), StepsTo n s t → ∃ later, t.out = s.out ++ later ∧ later.length ≤ n)

/-- The dispatch table and the rest of the configuration never change: not by the loader, not by any step of any run
(spec 10_state.md section 7; carrying them in State is the model's choice, log 3). -/
def Obligations.ConfigurationNeverChanges : Prop :=
  (∀ (s t : State) (prog : List Byte), s.load prog = .ok t → t.cfg = s.cfg) ∧
  (∀ (n : Nat) (s t : State), StepsTo n s t → t.cfg = s.cfg)

/-- An instruction that completes writes only the registers its row lists, and what it does depends on
no register but those its row lists as read (spec 10_state.md section 2, the register access table). -/
def Obligations.RegistersReadAndWritten : Prop :=
  ∀ (i : Instr) (s s' t : State), s.fault = none → exec i s = .next t → t.fault = none →
    s' = { s with regs := s'.regs } → (∀ k ∈ registersRead s.cfg s.fl i, s'.reg k = s.reg k) →
    SameRegsBut (registersWritten s.cfg i) s t ∧
    ∃ t', exec i s' = .next t' ∧ t' = { t with regs := t'.regs } ∧
      (∀ k ∈ registersWritten s.cfg i, t'.reg k = t.reg k) ∧ SameRegsBut (registersWritten s.cfg i) s' t'

/-- After a PUSH, fetch sees the stored byte at once, as opcode or as operand, and every other byte as before
(spec 20_memory.md section 5). -/
def Obligations.FetchSeesThePushedByte : Prop :=
  ∀ (s t : State) (r : Byte) (k : Fin 8) (j : Nat), IsRunning s → r.toNat = k.val → s.pc + 1 < 256 → s.reg 7 ≠ 0 →
    s.mem.wf → exec (.push r) s = .next t → j < 3 → t.pc + j < 256 →
    IsRunning t ∧
    (t.pc + j = (t.reg 7).toNat → (fetchWindow t)[j]? = some (if k = 7 then t.reg 7 else s.reg k)) ∧
    (t.pc + j ≠ (t.reg 7).toNat → (fetchWindow t)[j]? = some (s.mem.read (t.pc + j)))

/-- PUSH then POP of the same register, two steps of the machine: every register is as it was, and only the cell below the
old stack pointer may have changed, which keeps the pushed value (spec 44_stack.md, stack discipline). -/
def Obligations.PushThenPopRestores : Prop :=
  ∀ (s : State) (r : Byte) (k : Fin 8), IsRunning s → s.cfg.wf → s.mem.wf → r.toNat = k.val → s.pc + 3 < 256 →
    s.mem.read s.pc = s.cfg.opcodes.push → s.mem.read (s.pc + 1) = r →
    s.mem.read (s.pc + 2) = s.cfg.opcodes.pop → s.mem.read (s.pc + 3) = r →
    s.reg 7 ≠ 0 → (s.reg 7).toNat - 1 ≠ s.pc + 2 → (s.reg 7).toNat - 1 ≠ s.pc + 3 →
    ∃ t u, step s = .next t ∧ step t = .next u ∧ SameRegsBut [] s u ∧ u.pc = s.pc + 4 ∧
      u.mem.read ((s.reg 7).toNat - 1) = (if k = 7 then s.reg 7 - 1 else s.reg k) ∧
      (∀ a, a ≠ (s.reg 7).toNat - 1 → u.mem.read a = s.mem.read a) ∧ SameControl s u ∧ u.fl = s.fl ∧ u.out = s.out

/-! ### Runs -/

/-- The invariant holds after construction. It takes in the spec's decisions D7 and D8 and the defaults (log 1, 6, 11, 21). -/
def Obligations.InvariantHoldsAtReset : Prop := Inv State.reset

/-- Every step keeps the invariant: legal configuration, canonical memory, `pc` in 0 to 258, one of the four `FL` values,
Halted and Faulted exclusive, a fault record of the closed list (spec 10_state.md sections 3 to 5, 60_exceptions.md
section 1; the spec's decisions D6, D7, D8, D24). -/
def Obligations.EveryStepKeepsTheInvariant : Prop :=
  ∀ s t : State, Inv s → step s = .next t → Inv t

/-- Every state of every run of every program that loads, under every legal configuration, satisfies the invariant
(spec 70_reset_and_hazards.md section 1, 10_state.md sections 3 to 5; the spec's decisions D6, D7, D8, D24). -/
def Obligations.EveryRunOfALoadedProgramKeepsTheInvariant : Prop :=
  ∀ (c : Config) (prog : List Byte) (s t : State) (n : Nat), c.wf →
    ({ State.reset with cfg := c } : State).load prog = .ok s → StepsTo n s t → Inv t

/-- 40_dispatch.md R116: a run reaches Halted, or reaches Faulted, or never ends, exactly one of the three, and which one
is a function of the loaded memory and the configuration. -/
def Obligations.ARunHasExactlyOneOutcome : Prop :=
  (∀ s : State, s.started = true →
    (EndsHalted s ∨ EndsFaulted s ∨ NeverEnds s) ∧
    ¬(EndsHalted s ∧ EndsFaulted s) ∧ ¬(EndsHalted s ∧ NeverEnds s) ∧ ¬(EndsFaulted s ∧ NeverEnds s)) ∧
  (∀ (c : Config) (p q : List Byte) (s t : State), ({ State.reset with cfg := c } : State).load p = .ok s →
    ({ State.reset with cfg := c } : State).load q = .ok t → (∀ a, a < 256 → s.mem.read a = t.mem.read a) → s = t)

/-- A run that reaches Halted is safe: no state of it ever held a fault (spec 10_state.md section 5). -/
def Obligations.HaltedRunsAreSafe : Prop :=
  ∀ s : State, s.started = true → EndsHalted s → SafeRun s

/-- The end of a run as the host sees it: nothing while Running, success after Halted, the configured failure code, which
is not zero, after Faulted (spec 60_exceptions.md section 5; the code is open, D14, log 16). -/
def Obligations.ExitIndicationFollowsTheRunState : Prop :=
  ∀ s : State, s.cfg.wf →
    (s.runState = .running → s.exitIndication = none) ∧
    (s.runState = .halted → s.exitIndication = some .success) ∧
    (s.runState = .faulted → ∃ code, code ≠ 0 ∧ s.exitIndication = some (.failure code))

/-- The host loads one program at most, and before run-start: where a load succeeded nothing was loaded before, and no later
load does, neither at once nor after any number of steps; no step undoes this (spec 70_reset_and_hazards.md section 3,
20_memory.md section 6). That a load the host may not make answers a load error by name is the model's (log 20). -/
def Obligations.OneProgramIsLoaded : Prop :=
  ∀ (s t : State) (prog : List Byte), s.load prog = .ok t →
    s.started = false ∧ s.loaded = false ∧ (∀ again, t.load again = .error .alreadyLoaded) ∧
    (∀ (n : Nat) (u : State), StepsTo n t u →
      u.loaded = true ∧ (n ≠ 0 → ∀ again, u.load again = .error .runStarted))
end

