-- ==== Sys2Proof/Laws/State.lean ====
section
/-! SUPPORT. One lemma per field per update of State, so that no proof unfolds a record update. -/
namespace Sys2Proof.Machine

/-! ### setReg -/

@[simp] theorem setReg_cfg (s : State) (k : Fin 8) (v : Byte) : (s.setReg k v).cfg = s.cfg := rfl
@[simp] theorem setReg_started (s : State) (k : Fin 8) (v : Byte) : (s.setReg k v).started = s.started := rfl
@[simp] theorem setReg_loaded (s : State) (k : Fin 8) (v : Byte) : (s.setReg k v).loaded = s.loaded := rfl
@[simp] theorem setReg_mem (s : State) (k : Fin 8) (v : Byte) : (s.setReg k v).mem = s.mem := rfl
@[simp] theorem setReg_regs (s : State) (k : Fin 8) (v : Byte) : (s.setReg k v).regs = s.regs.set k v := rfl
@[simp] theorem setReg_pc (s : State) (k : Fin 8) (v : Byte) : (s.setReg k v).pc = s.pc := rfl
@[simp] theorem setReg_fl (s : State) (k : Fin 8) (v : Byte) : (s.setReg k v).fl = s.fl := rfl
@[simp] theorem setReg_halt (s : State) (k : Fin 8) (v : Byte) : (s.setReg k v).halt = s.halt := rfl
@[simp] theorem setReg_fault (s : State) (k : Fin 8) (v : Byte) : (s.setReg k v).fault = s.fault := rfl
@[simp] theorem setReg_out (s : State) (k : Fin 8) (v : Byte) : (s.setReg k v).out = s.out := rfl

/-! ### withPc -/

@[simp] theorem withPc_cfg (s : State) (t : Nat) : (s.withPc t).cfg = s.cfg := rfl
@[simp] theorem withPc_started (s : State) (t : Nat) : (s.withPc t).started = s.started := rfl
@[simp] theorem withPc_loaded (s : State) (t : Nat) : (s.withPc t).loaded = s.loaded := rfl
@[simp] theorem withPc_mem (s : State) (t : Nat) : (s.withPc t).mem = s.mem := rfl
@[simp] theorem withPc_regs (s : State) (t : Nat) : (s.withPc t).regs = s.regs := rfl
@[simp] theorem withPc_pc (s : State) (t : Nat) : (s.withPc t).pc = t := rfl
@[simp] theorem withPc_fl (s : State) (t : Nat) : (s.withPc t).fl = s.fl := rfl
@[simp] theorem withPc_halt (s : State) (t : Nat) : (s.withPc t).halt = s.halt := rfl
@[simp] theorem withPc_fault (s : State) (t : Nat) : (s.withPc t).fault = s.fault := rfl
@[simp] theorem withPc_out (s : State) (t : Nat) : (s.withPc t).out = s.out := rfl

/-! ### advance -/

@[simp] theorem advance_cfg (s : State) (n : Nat) : (s.advance n).cfg = s.cfg := rfl
@[simp] theorem advance_started (s : State) (n : Nat) : (s.advance n).started = s.started := rfl
@[simp] theorem advance_loaded (s : State) (n : Nat) : (s.advance n).loaded = s.loaded := rfl
@[simp] theorem advance_mem (s : State) (n : Nat) : (s.advance n).mem = s.mem := rfl
@[simp] theorem advance_regs (s : State) (n : Nat) : (s.advance n).regs = s.regs := rfl
@[simp] theorem advance_pc (s : State) (n : Nat) : (s.advance n).pc = s.pc + n := rfl
@[simp] theorem advance_fl (s : State) (n : Nat) : (s.advance n).fl = s.fl := rfl
@[simp] theorem advance_halt (s : State) (n : Nat) : (s.advance n).halt = s.halt := rfl
@[simp] theorem advance_fault (s : State) (n : Nat) : (s.advance n).fault = s.fault := rfl
@[simp] theorem advance_out (s : State) (n : Nat) : (s.advance n).out = s.out := rfl

/-! ### withFl -/

@[simp] theorem withFl_cfg (s : State) (v : Byte) : (s.withFl v).cfg = s.cfg := rfl
@[simp] theorem withFl_started (s : State) (v : Byte) : (s.withFl v).started = s.started := rfl
@[simp] theorem withFl_loaded (s : State) (v : Byte) : (s.withFl v).loaded = s.loaded := rfl
@[simp] theorem withFl_mem (s : State) (v : Byte) : (s.withFl v).mem = s.mem := rfl
@[simp] theorem withFl_regs (s : State) (v : Byte) : (s.withFl v).regs = s.regs := rfl
@[simp] theorem withFl_pc (s : State) (v : Byte) : (s.withFl v).pc = s.pc := rfl
@[simp] theorem withFl_fl (s : State) (v : Byte) : (s.withFl v).fl = v := rfl
@[simp] theorem withFl_halt (s : State) (v : Byte) : (s.withFl v).halt = s.halt := rfl
@[simp] theorem withFl_fault (s : State) (v : Byte) : (s.withFl v).fault = s.fault := rfl
@[simp] theorem withFl_out (s : State) (v : Byte) : (s.withFl v).out = s.out := rfl

/-! ### setHalt -/

@[simp] theorem setHalt_cfg (s : State) : (s.setHalt).cfg = s.cfg := rfl
@[simp] theorem setHalt_started (s : State) : (s.setHalt).started = s.started := rfl
@[simp] theorem setHalt_loaded (s : State) : (s.setHalt).loaded = s.loaded := rfl
@[simp] theorem setHalt_mem (s : State) : (s.setHalt).mem = s.mem := rfl
@[simp] theorem setHalt_regs (s : State) : (s.setHalt).regs = s.regs := rfl
@[simp] theorem setHalt_pc (s : State) : (s.setHalt).pc = s.pc := rfl
@[simp] theorem setHalt_fl (s : State) : (s.setHalt).fl = s.fl := rfl
@[simp] theorem setHalt_halt (s : State) : (s.setHalt).halt = true := rfl
@[simp] theorem setHalt_fault (s : State) : (s.setHalt).fault = s.fault := rfl
@[simp] theorem setHalt_out (s : State) : (s.setHalt).out = s.out := rfl

/-! ### emit -/

@[simp] theorem emit_cfg (s : State) (v : Byte) : (s.emit v).cfg = s.cfg := rfl
@[simp] theorem emit_started (s : State) (v : Byte) : (s.emit v).started = s.started := rfl
@[simp] theorem emit_loaded (s : State) (v : Byte) : (s.emit v).loaded = s.loaded := rfl
@[simp] theorem emit_mem (s : State) (v : Byte) : (s.emit v).mem = s.mem := rfl
@[simp] theorem emit_regs (s : State) (v : Byte) : (s.emit v).regs = s.regs := rfl
@[simp] theorem emit_pc (s : State) (v : Byte) : (s.emit v).pc = s.pc := rfl
@[simp] theorem emit_fl (s : State) (v : Byte) : (s.emit v).fl = s.fl := rfl
@[simp] theorem emit_halt (s : State) (v : Byte) : (s.emit v).halt = s.halt := rfl
@[simp] theorem emit_fault (s : State) (v : Byte) : (s.emit v).fault = s.fault := rfl
@[simp] theorem emit_out (s : State) (v : Byte) : (s.emit v).out = s.out ++ [v] := rfl

/-! ### withFault -/

@[simp] theorem withFault_cfg (s : State) (f : FaultRecord) : (s.withFault f).cfg = s.cfg := rfl
@[simp] theorem withFault_started (s : State) (f : FaultRecord) : (s.withFault f).started = s.started := rfl
@[simp] theorem withFault_loaded (s : State) (f : FaultRecord) : (s.withFault f).loaded = s.loaded := rfl
@[simp] theorem withFault_mem (s : State) (f : FaultRecord) : (s.withFault f).mem = s.mem := rfl
@[simp] theorem withFault_regs (s : State) (f : FaultRecord) : (s.withFault f).regs = s.regs := rfl
@[simp] theorem withFault_pc (s : State) (f : FaultRecord) : (s.withFault f).pc = s.pc := rfl
@[simp] theorem withFault_fl (s : State) (f : FaultRecord) : (s.withFault f).fl = s.fl := rfl
@[simp] theorem withFault_halt (s : State) (f : FaultRecord) : (s.withFault f).halt = s.halt := rfl
@[simp] theorem withFault_fault (s : State) (f : FaultRecord) : (s.withFault f).fault = some f := rfl
@[simp] theorem withFault_out (s : State) (f : FaultRecord) : (s.withFault f).out = s.out := rfl

/-! ### setCell -/

@[simp] theorem setCell_cfg (s : State) (a : Nat) (v : Byte) : (s.setCell a v).cfg = s.cfg := rfl
@[simp] theorem setCell_started (s : State) (a : Nat) (v : Byte) : (s.setCell a v).started = s.started := rfl
@[simp] theorem setCell_loaded (s : State) (a : Nat) (v : Byte) : (s.setCell a v).loaded = s.loaded := rfl
@[simp] theorem setCell_mem (s : State) (a : Nat) (v : Byte) : (s.setCell a v).mem = s.mem.write a v := rfl
@[simp] theorem setCell_regs (s : State) (a : Nat) (v : Byte) : (s.setCell a v).regs = s.regs := rfl
@[simp] theorem setCell_pc (s : State) (a : Nat) (v : Byte) : (s.setCell a v).pc = s.pc := rfl
@[simp] theorem setCell_fl (s : State) (a : Nat) (v : Byte) : (s.setCell a v).fl = s.fl := rfl
@[simp] theorem setCell_halt (s : State) (a : Nat) (v : Byte) : (s.setCell a v).halt = s.halt := rfl
@[simp] theorem setCell_fault (s : State) (a : Nat) (v : Byte) : (s.setCell a v).fault = s.fault := rfl
@[simp] theorem setCell_out (s : State) (a : Nat) (v : Byte) : (s.setCell a v).out = s.out := rfl

/-! ### runStart -/

@[simp] theorem runStart_cfg (s : State) : s.runStart.cfg = s.cfg := rfl
@[simp] theorem runStart_started (s : State) : s.runStart.started = true := rfl
@[simp] theorem runStart_loaded (s : State) : s.runStart.loaded = s.loaded := rfl
@[simp] theorem runStart_mem (s : State) : s.runStart.mem = s.mem := rfl
@[simp] theorem runStart_regs (s : State) : s.runStart.regs = s.regs.set spIndex spInit := rfl
@[simp] theorem runStart_pc (s : State) : s.runStart.pc = s.pc := rfl
@[simp] theorem runStart_fl (s : State) : s.runStart.fl = s.fl := rfl
@[simp] theorem runStart_halt (s : State) : s.runStart.halt = false := rfl
@[simp] theorem runStart_fault (s : State) : s.runStart.fault = s.fault := rfl
@[simp] theorem runStart_out (s : State) : s.runStart.out = s.out := rfl

/-! ### Registers -/

/-- Reading any register after writing one. -/
theorem regs_set_get (v : Vector Byte 8) (j k : Fin 8) (x : Byte) :
    (v.set j x)[k] = if k = j then x else v[k] := by
  rcases j with ⟨j, hj⟩
  rcases k with ⟨k, hk⟩
  simp only [Fin.getElem_fin, Fin.mk.injEq, Vector.getElem_set, eq_comm]

theorem reg_setReg (s : State) (j k : Fin 8) (x : Byte) :
    (s.setReg j x).reg k = if k = j then x else s.reg k := regs_set_get s.regs j k x

@[simp] theorem reg_setReg_same (s : State) (k : Fin 8) (x : Byte) : (s.setReg k x).reg k = x := by
  simp [reg_setReg]

theorem reg_setReg_ne (s : State) {j k : Fin 8} (h : k ≠ j) (x : Byte) : (s.setReg j x).reg k = s.reg k := by
  simp [reg_setReg, h]

@[simp] theorem reg_withPc (s : State) (t : Nat) (k : Fin 8) : (s.withPc t).reg k = s.reg k := rfl
@[simp] theorem reg_advance (s : State) (n : Nat) (k : Fin 8) : (s.advance n).reg k = s.reg k := rfl
@[simp] theorem reg_withFl (s : State) (v : Byte) (k : Fin 8) : (s.withFl v).reg k = s.reg k := rfl
@[simp] theorem reg_setHalt (s : State) (k : Fin 8) : s.setHalt.reg k = s.reg k := rfl
@[simp] theorem reg_emit (s : State) (v : Byte) (k : Fin 8) : (s.emit v).reg k = s.reg k := rfl
@[simp] theorem reg_withFault (s : State) (f : FaultRecord) (k : Fin 8) : (s.withFault f).reg k = s.reg k := rfl
@[simp] theorem reg_setCell (s : State) (a : Nat) (v : Byte) (k : Fin 8) : (s.setCell a v).reg k = s.reg k := rfl

/-! ### Run state -/

theorem runState_running (s : State) : s.runState = .running ↔ s.fault = none ∧ s.halt = false := by
  unfold State.runState
  cases s.fault <;> cases s.halt <;> simp

theorem runState_halted (s : State) : s.runState = .halted ↔ s.fault = none ∧ s.halt = true := by
  unfold State.runState
  cases s.fault <;> cases s.halt <;> simp

theorem runState_faulted (s : State) : s.runState = .faulted ↔ ∃ f, s.fault = some f := by
  unfold State.runState
  cases s.fault <;> cases s.halt <;> simp

end Sys2Proof.Machine
end

