-- ==== Sys2Proof/Laws/Memory.lean ====
section
/-! SUPPORT. Memory as data: every operation keeps the canonical form; what a read sees after a write. -/
namespace Sys2Proof.Machine

theorem Memory.wf_nil : Memory.wf [] := by simp [Memory.wf]

/-- The canonical form, one cell at a time. -/
theorem Memory.wf_cons {b : Nat} {w : Byte} {m : Memory} :
    Memory.wf ((b, w) :: m) ↔ (∀ c ∈ m, b < c.1) ∧ b < 256 ∧ w ≠ 0 ∧ Memory.wf m := by
  simp only [Memory.wf, List.pairwise_cons, List.forall_mem_cons]
  tauto

/-- A write adds no address but its own. -/
theorem Memory.mem_write {m : Memory} {a : Nat} {v : Byte} {c : Host.Cell} (h : c ∈ m.write a v) :
    c = (a, v) ∨ c ∈ m := by
  induction m with
  | nil =>
    unfold Memory.write at h
    split at h <;> simp_all
  | cons d m ih =>
    obtain ⟨b, w⟩ := d
    unfold Memory.write at h
    split at h
    · split at h <;> simp_all
    · split at h
      · split at h <;> simp_all
        rcases h with h | h <;> simp [h]
      · rcases List.mem_cons.1 h with h | h
        · simp [h]
        · rcases ih h with h | h <;> simp [h]

/-- A write in the address space keeps the canonical form. -/
theorem Memory.write_wf {m : Memory} (hm : m.wf) {a : Nat} (ha : a < 256) (v : Byte) : (m.write a v).wf := by
  induction m with
  | nil =>
    unfold Memory.write
    split
    · exact Memory.wf_nil
    · exact Memory.wf_cons.2 ⟨by simp, ha, ‹_›, Memory.wf_nil⟩
  | cons d m ih =>
    obtain ⟨b, w⟩ := d
    obtain ⟨hlt, hb, hw, hwf⟩ := Memory.wf_cons.1 hm
    unfold Memory.write
    split
    · split
      · exact hm
      · refine Memory.wf_cons.2 ⟨?_, ha, ‹_›, hm⟩
        intro c hc
        rcases List.mem_cons.1 hc with rfl | hc
        · assumption
        · exact lt_trans ‹_› (hlt c hc)
    · split
      · subst_vars
        split
        · exact hwf
        · exact Memory.wf_cons.2 ⟨hlt, hb, ‹_›, hwf⟩
      · refine Memory.wf_cons.2 ⟨?_, hb, hw, ih hwf⟩
        intro c hc
        rcases Memory.mem_write hc with rfl | hc
        · simp only
          omega
        · exact hlt c hc

/-- Below every listed address a cell reads as 0. -/
theorem Memory.read_eq_zero {m : Memory} {a : Nat} (h : ∀ c ∈ m, a < c.1) : m.read a = 0 := by
  induction m with
  | nil => rfl
  | cons d m ih =>
    obtain ⟨b, w⟩ := d
    have hb : a < b := h (b, w) (by simp)
    have hne : a ≠ b := by omega
    simp only [Memory.read, hne, if_false]
    exact ih fun c hc => h c (by simp [hc])

/-- Reading any cell after writing one. -/
theorem Memory.read_write {m : Memory} (hm : m.wf) (a c : Nat) (v : Byte) :
    (m.write a v).read c = if c = a then v else m.read c := by
  induction m with
  | nil =>
    unfold Memory.write
    split <;> simp_all [Memory.read]
  | cons d m ih =>
    obtain ⟨b, w⟩ := d
    obtain ⟨hlt, hb, hw, hwf⟩ := Memory.wf_cons.1 hm
    unfold Memory.write
    split
    · have h0 : Memory.read ((b, w) :: m) a = 0 := by
        refine Memory.read_eq_zero fun e he => ?_
        rcases List.mem_cons.1 he with rfl | he
        · assumption
        · exact lt_trans ‹_› (hlt e he)
      split
      · by_cases hc : c = a <;> simp_all
      · rw [Memory.read]
    · split
      · subst_vars
        have h0 : Memory.read m b = 0 := Memory.read_eq_zero hlt
        split
        · by_cases hc : c = b <;> simp_all [Memory.read]
        · by_cases hc : c = b <;> simp_all [Memory.read]
      · simp only [Memory.read, ih hwf]
        by_cases hc : c = b
        · have : c ≠ a := by omega
          simp [hc, Ne.symm ‹¬a = b›]
        · simp [hc]

/-- Storing bytes keeps the canonical form. -/
theorem Memory.store_wf {m : Memory} (hm : m.wf) (a : Nat) (bytes : List Byte) : (m.store a bytes).wf := by
  induction bytes generalizing m a with
  | nil => exact hm
  | cons v vs ih =>
    unfold Memory.store
    split
    · exact ih (Memory.write_wf hm ‹_› v) _
    · exact ih hm _

/-- Reading a cell after storing bytes from `a` on. -/
theorem Memory.read_store {m : Memory} (hm : m.wf) (a : Nat) (bytes : List Byte) (c : Nat) (hc : c < 256) :
    (m.store a bytes).read c = if a ≤ c ∧ c < a + bytes.length then bytes.getD (c - a) 0 else m.read c := by
  induction bytes generalizing m a with
  | nil =>
    have : ¬(a ≤ c ∧ c < a) := by omega
    simp [Memory.store, this]
  | cons v vs ih =>
    have key : ∀ {m' : Memory}, m'.wf → (c ≠ a → m'.read c = m.read c) → (c = a → m'.read c = v) →
        (m'.store (a + 1) vs).read c =
          if a ≤ c ∧ c < a + (v :: vs).length then (v :: vs).getD (c - a) 0 else m.read c := by
      intro m' hwf hne heq
      rw [ih hwf]
      rcases lt_trichotomy c a with h | h | h
      · have h1 : ¬(a + 1 ≤ c ∧ c < a + 1 + vs.length) := by omega
        have h2 : ¬(a ≤ c ∧ c < a + (v :: vs).length) := by omega
        rw [if_neg h1, if_neg h2, hne (by omega)]
      · subst h
        have h1 : ¬(c + 1 ≤ c ∧ c < c + 1 + vs.length) := by omega
        rw [if_neg h1, heq rfl]
        simp
      · obtain ⟨k, rfl⟩ : ∃ k, c = a + 1 + k := ⟨c - a - 1, by omega⟩
        have h3 : a + 1 + k - a = k + 1 := by omega
        have h4 : a + 1 + k - (a + 1) = k := by omega
        have h5 : (a + 1 ≤ a + 1 + k ∧ a + 1 + k < a + 1 + vs.length) ↔
            (a ≤ a + 1 + k ∧ a + 1 + k < a + (v :: vs).length) := by
          simp only [List.length_cons]
          omega
        rw [h3, h4, List.getD_cons_succ, hne (by omega)]
        simp only [h5]
    unfold Memory.store
    split
    · refine key (Memory.write_wf hm ‹_› v) (fun h => ?_) (fun h => ?_)
      · simp [Memory.read_write hm, h]
      · simp [Memory.read_write hm, h]
    · exact key hm (fun _ => rfl) (fun h => absurd hc (by omega))

/-- `setCell` in the address space keeps memory canonical. -/
theorem setCell_wf {s : State} (hs : s.mem.wf) {a : Nat} (ha : a < 256) (v : Byte) : (s.setCell a v).mem.wf :=
  Memory.write_wf hs ha v

/-- Everything the loader can do. -/
theorem load_cases {s t : State} {prog : List Byte} (h : s.load prog = .ok t) :
    s.started = false ∧ s.loaded = false ∧ prog.length ≤ 256 ∧
      t = { s with mem := s.mem.store 0 prog, loaded := true } := by
  unfold State.load at h
  split at h
  · cases h
  · split at h
    · cases h
    · split at h
      · cases h
        exact ⟨by simpa using ‹¬s.started = true›, by simpa using ‹¬s.loaded = true›, ‹_›, rfl⟩
      · cases h

/-- After run-start there is no load. -/
theorem load_of_started {s : State} (h : s.started = true) (prog : List Byte) : s.load prog = .error .runStarted := by
  simp [State.load, h]

/-- There is no second load. -/
theorem load_of_loaded {s : State} (h1 : s.started = false) (h2 : s.loaded = true) (prog : List Byte) :
    s.load prog = .error .alreadyLoaded := by
  simp [State.load, h1, h2]

/-- The loader keeps memory canonical. -/
theorem load_wf {s t : State} {prog : List Byte} (hs : s.mem.wf) (h : s.load prog = .ok t) : t.mem.wf := by
  obtain ⟨-, -, -, rfl⟩ := load_cases h
  exact Memory.store_wf hs 0 prog

/-- Reset memory is canonical. -/
theorem reset_mem_wf : State.reset.mem.wf := Memory.wf_nil

end Sys2Proof.Machine
end

