-- ==== Sys2Proof/Laws/Ops.lean ====
section
/-! SUPPORT. What each shared operation can answer, said once: success with its result, or its own fault. -/
namespace Sys2Proof.Machine

/-! ### Sequencing -/

@[simp] theorem bind_ok {α β : Type} (x : α) (f : α → Except FaultRecord β) : (Except.ok x >>= f) = f x := rfl

@[simp] theorem bind_error {α β : Type} (e : FaultRecord) (f : α → Except FaultRecord β) :
    ((Except.error e : Except FaultRecord α) >>= f) = .error e := rfl

/-- A sequence succeeds exactly when both parts do. -/
theorem bind_eq_ok {α β : Type} {x : Except FaultRecord α} {f : α → Except FaultRecord β} {y : β} :
    (x >>= f) = .ok y ↔ ∃ a, x = .ok a ∧ f a = .ok y := by
  cases x <;> simp

/-- A sequence faults with the first fault met (60_exceptions.md R209). -/
theorem bind_eq_error {α β : Type} {x : Except FaultRecord α} {f : α → Except FaultRecord β} {e : FaultRecord} :
    (x >>= f) = .error e ↔ x = .error e ∨ ∃ a, x = .ok a ∧ f a = .error e := by
  cases x <;> simp

/-! ### Ending an instruction -/

@[simp] theorem complete_ok (s t : State) : complete s (.ok t) = .next t := rfl

@[simp] theorem complete_error (s : State) (f : FaultRecord) : complete s (.error f) = .next (s.withFault f) := rfl

/-- An instruction ends in its handler's state, or in the state it began in with the fault recorded. -/
theorem complete_cases {s t : State} {r : Except FaultRecord State} (h : complete s r = .next t) :
    r = .ok t ∨ ∃ f, r = .error f ∧ t = s.withFault f := by
  cases r with
  | ok u => simp at h; exact .inl (by rw [h])
  | error f => simp at h; exact .inr ⟨f, rfl, h.symm⟩

/-- Ending an instruction is always a next state. -/
theorem complete_next (s : State) (r : Except FaultRecord State) : ∃ t, complete s r = .next t := by
  cases r <;> simp

/-! ### Memory and register interfaces -/

theorem memRead_ok {s : State} {a : Nat} (h : a < 256) : memRead s a = .ok (s.mem.read a) := if_pos h

theorem memRead_error {s : State} {a : Nat} (h : 256 ≤ a) : memRead s a = .error (.boundsFault .memAddress a) :=
  if_neg (by omega)

theorem memWrite_ok {s : State} {a : Nat} (h : a < 256) (v : Byte) : memWrite s a v = .ok (s.setCell a v) := if_pos h

theorem memWrite_error {s : State} {a : Nat} (h : 256 ≤ a) (v : Byte) :
    memWrite s a v = .error (.boundsFault .memAddress a) := if_neg (by omega)

/-- The data address of PUSH and POP is a byte, so it is in range (20_memory.md R52). -/
theorem byte_lt_256 (v : Byte) : v.toNat < 256 := v.isLt

theorem regIndex_ok {i : Nat} (h : i < 8) : regIndex i = .ok ⟨i, h⟩ := dif_pos h

theorem regIndex_error {i : Nat} (h : 8 ≤ i) : regIndex i = .error (.boundsFault .regIndex i) :=
  dif_neg (by omega)

@[simp] theorem regIndex_val (k : Fin 8) : regIndex k.val = .ok k := regIndex_ok k.isLt

/-- The index check succeeds with the very index. -/
theorem regIndex_eq_ok {i : Nat} {k : Fin 8} : regIndex i = .ok k ↔ i = k.val := by
  unfold regIndex
  split
  · simp [Fin.ext_iff]
  · have := k.isLt
    simp
    omega

/-- The index check faults with the very index. -/
theorem regIndex_eq_error {i : Nat} {f : FaultRecord} :
    regIndex i = .error f ↔ 8 ≤ i ∧ f = .boundsFault .regIndex i := by
  unfold regIndex
  split
  · simp
    omega
  · simp [eq_comm]
    omega

theorem spDecrement_ok {sp : Byte} (h : sp ≠ 0) : spDecrement sp = .ok (sp - 1) := if_neg h

theorem spDecrement_zero : spDecrement 0 = .error (.boundsFault .spRange (-1)) := rfl

theorem spIncrement_ok {sp : Byte} (h : sp ≠ 255) : spIncrement sp = .ok (sp + 1) := if_neg h

theorem spIncrement_top : spIncrement 255 = .error (.boundsFault .spRange 256) := rfl

/-! ### Operands -/

theorem fetchOperand_ok {s : State} {k : Nat} (h : s.pc + k < 256) (v : Byte) : fetchOperand s k v = .ok v := if_pos h

theorem fetchOperand_error {s : State} {k : Nat} (h : 256 ≤ s.pc + k) (v : Byte) :
    fetchOperand s k v = .error (.boundsFault .memAddress (s.pc + k : Nat)) := if_neg (by omega)

theorem fetchOperand_eq_ok {s : State} {k : Nat} {v w : Byte} :
    fetchOperand s k v = .ok w ↔ s.pc + k < 256 ∧ w = v := by
  unfold fetchOperand
  split <;> simp_all [eq_comm]

theorem fetchOperand_eq_error {s : State} {k : Nat} {v : Byte} {f : FaultRecord} :
    fetchOperand s k v = .error f ↔ 256 ≤ s.pc + k ∧ f = .boundsFault .memAddress (s.pc + k : Nat) := by
  unfold fetchOperand
  split
  · rename_i h
    simp at h ⊢
    omega
  · simp_all [eq_comm]

theorem fetchReg_eq_ok {s : State} {r : Byte} {k : Fin 8} :
    fetchReg s r = .ok k ↔ s.pc + 1 < 256 ∧ r.toNat = k.val := by
  simp [fetchReg, bind_eq_ok, fetchOperand_eq_ok, regIndex_eq_ok]

theorem fetchReg_eq_error {s : State} {r : Byte} {f : FaultRecord} :
    fetchReg s r = .error f ↔
      (256 ≤ s.pc + 1 ∧ f = .boundsFault .memAddress (s.pc + 1 : Nat)) ∨
      (s.pc + 1 < 256 ∧ 8 ≤ r.toNat ∧ f = .boundsFault .regIndex r.toNat) := by
  simp [fetchReg, bind_eq_error, fetchOperand_eq_error, fetchOperand_eq_ok, regIndex_eq_error]

theorem fetchReg_ok {s : State} {r : Byte} (hp : s.pc + 1 < 256) (hr : r.toNat < 8) :
    fetchReg s r = .ok ⟨r.toNat, hr⟩ := fetchReg_eq_ok.2 ⟨hp, rfl⟩

theorem aluPair_fixed {s : State} (h : s.cfg.aluOperands = .fixed) (pair : Nat × Nat) (a b : Byte) :
    aluPair s pair a b = .ok pair := by
  simp [aluPair, h]

theorem aluPair_decoded {s : State} (h : s.cfg.aluOperands = .decoded) (pair : Nat × Nat) {a b : Byte}
    (hp : s.pc + 2 < 256) (ha : a.toNat < 8) (hb : b.toNat < 8) :
    aluPair s pair a b = .ok (a.toNat, b.toNat) := by
  simp [aluPair, h, fetchOperand_ok (s := s) (k := 1) (by omega), fetchOperand_ok hp, regIndex_ok ha, regIndex_ok hb]

/-! ### The ALU -/

@[simp] theorem alu_add (i j : Fin 8) (s : State) :
    alu .add i.val j.val s = .ok (s.setReg i (aluAdd (s.reg i) (s.reg j))) := by
  simp [alu]

@[simp] theorem alu_mul (i j : Fin 8) (s : State) :
    alu .mul i.val j.val s = .ok (s.setReg i (aluMul (s.reg i) (s.reg j))) := by
  simp [alu]

@[simp] theorem alu_cmp (i j : Fin 8) (s : State) :
    alu .cmp i.val j.val s = .ok (s.withFl (compareFlags (s.reg i) (s.reg j))) := by
  simp [alu]

/-- Everything the ALU can do when it succeeds: write one register, or write the flags, and nothing else. -/
theorem alu_cases {op : AluOp} {a b : Nat} {s t : State} (h : alu op a b s = .ok t) :
    (∃ i v, i.val = a ∧ t = s.setReg i v ∧ op ≠ .cmp) ∨
    (∃ i j : Fin 8, op = .cmp ∧ i.val = a ∧ j.val = b ∧ t = s.withFl (compareFlags (s.reg i) (s.reg j))) := by
  simp only [alu, bind_eq_ok, regIndex_eq_ok] at h
  obtain ⟨i, rfl, j, rfl, h⟩ := h
  cases op with
  | add => cases h; exact .inl ⟨i, _, rfl, rfl, by simp⟩
  | mul => cases h; exact .inl ⟨i, _, rfl, rfl, by simp⟩
  | cmp => cases h; exact .inr ⟨i, j, rfl, rfl, rfl, rfl⟩
  | other tag => cases h

/-- The flags of a comparison are one of the three single-bit values (10_state.md R28). -/
theorem compareFlags_cases (va vb : Byte) :
    compareFlags va vb = flEqual ∨ compareFlags va vb = flGreater ∨ compareFlags va vb = flLess := by
  unfold compareFlags
  split
  · simp
  · split <;> simp

end Sys2Proof.Machine
end

