-- ==== Sys2Proof/Laws/Exec.lean ====
section
/-! SUPPORT. What a handler can do, said once: `Completes s i t` lists every way instruction `i` completes from `s`,
`handler_fault` every fault it can raise otherwise, and then only the record changes. Proofs cite these and unfold no handler. -/
namespace Sys2Proof.Machine

/-- What the instruction's handler answers. -/
def handlerResult : Instr → State → Except FaultRecord State
  | .ldi r imm, s => handleLdi r imm s
  | .prn r, s => handlePrn r s
  | .hlt, s => handleHlt s
  | .mul a b, s => aluHandler .mul (0, 1) a b s
  | .add a b, s => aluHandler .add (0, 0) a b s
  | .push r, s => handlePush r s
  | .pop r, s => handlePop r s
  | .cmp a b, s => aluHandler .cmp (0, 1) a b s
  | .jeq r, s => handleJeq r s
  | .jne r, s => handleJne r s
  | .jmp r, s => jumpTo r s

/-- Every instruction ends as its handler says. -/
theorem exec_eq_complete (i : Instr) (s : State) : exec i s = complete s (handlerResult i s) := by cases i <;> rfl

/-! ### The stack pointer -/

theorem spDecrement_eq_ok {sp v : Byte} : spDecrement sp = .ok v ↔ sp ≠ 0 ∧ v = sp - 1 := by
  unfold spDecrement
  split
  · simp_all
  · rename_i h
    simp only [Except.ok.injEq, ne_eq, h, not_false_eq_true, true_and]
    exact eq_comm

theorem spIncrement_eq_ok {sp v : Byte} : spIncrement sp = .ok v ↔ sp ≠ 255 ∧ v = sp + 1 := by
  unfold spIncrement
  split
  · simp_all
  · rename_i h
    simp only [Except.ok.injEq, ne_eq, h, not_false_eq_true, true_and]
    exact eq_comm

theorem spDecrement_eq_error {sp : Byte} {f : FaultRecord} (h : spDecrement sp = .error f) :
    f = .boundsFault .spRange (-1) := by
  unfold spDecrement at h
  split at h <;> cases h
  rfl

theorem spIncrement_eq_error {sp : Byte} {f : FaultRecord} (h : spIncrement sp = .error f) :
    f = .boundsFault .spRange 256 := by
  unfold spIncrement at h
  split at h <;> cases h
  rfl

/-! ### One lemma per handler -/

theorem handleLdi_eq_ok {r imm : Byte} {s t : State} :
    handleLdi r imm s = .ok t ↔ ∃ k : Fin 8, r.toNat = k.val ∧ s.pc + 2 < 256 ∧ t = (s.setReg k imm).advance 3 := by
  simp only [handleLdi, bind_eq_ok, fetchOperand_eq_ok, regIndex_eq_ok, Except.ok.injEq]
  constructor
  · rintro ⟨_, ⟨-, rfl⟩, _, ⟨h, rfl⟩, k, hk, rfl⟩
    exact ⟨k, hk, h, rfl⟩
  · rintro ⟨k, hk, h, rfl⟩
    exact ⟨r, ⟨by omega, rfl⟩, imm, ⟨h, rfl⟩, k, hk, rfl⟩

theorem handlePrn_eq_ok {r : Byte} {s t : State} :
    handlePrn r s = .ok t ↔ ∃ k : Fin 8, r.toNat = k.val ∧ s.pc + 1 < 256 ∧ t = (s.emit (s.reg k)).advance 2 := by
  simp only [handlePrn, bind_eq_ok, fetchReg_eq_ok, Except.ok.injEq]
  constructor
  · rintro ⟨k, ⟨h, hk⟩, rfl⟩
    exact ⟨k, hk, h, rfl⟩
  · rintro ⟨k, hk, h, rfl⟩
    exact ⟨k, ⟨h, hk⟩, rfl⟩

/-- The state a completed PUSH reaches: `x[k]` is read after the decrement. -/
def pushed (s : State) (k : Fin 8) : State :=
  let t := s.setReg 7 (s.reg 7 - 1)
  (t.setCell (s.reg 7 - 1).toNat (t.reg k)).advance 2

theorem handlePush_eq_ok {r : Byte} {s t : State} :
    handlePush r s = .ok t ↔ ∃ k : Fin 8, r.toNat = k.val ∧ s.pc + 1 < 256 ∧ s.reg 7 ≠ 0 ∧ t = pushed s k := by
  simp only [handlePush, bind_eq_ok, fetchReg_eq_ok, spDecrement_eq_ok, memWrite_ok (byte_lt_256 _), Except.ok.injEq]
  constructor
  · rintro ⟨k, ⟨h, hk⟩, _, ⟨h0, rfl⟩, _, rfl, rfl⟩
    exact ⟨k, hk, h, h0, rfl⟩
  · rintro ⟨k, hk, h, h0, rfl⟩
    exact ⟨k, ⟨h, hk⟩, _, ⟨h0, rfl⟩, _, rfl, rfl⟩

/-- POP once its register is loaded: its stack pointer is the one POP increments. -/
def afterPopLoad (s : State) (k : Fin 8) : State := s.setReg k (s.mem.read (s.reg 7).toNat)

/-- The state a completed POP reaches. -/
def popped (s : State) (k : Fin 8) : State := ((afterPopLoad s k).setReg 7 ((afterPopLoad s k).reg 7 + 1)).advance 2

theorem handlePop_eq_ok {r : Byte} {s t : State} :
    handlePop r s = .ok t ↔
      ∃ k : Fin 8, r.toNat = k.val ∧ s.pc + 1 < 256 ∧ (afterPopLoad s k).reg 7 ≠ 255 ∧ t = popped s k := by
  simp only [handlePop, bind_eq_ok, fetchReg_eq_ok, spIncrement_eq_ok, memRead_ok (byte_lt_256 _), Except.ok.injEq]
  constructor
  · rintro ⟨k, ⟨h, hk⟩, _, rfl, _, ⟨h0, rfl⟩, rfl⟩
    exact ⟨k, hk, h, h0, rfl⟩
  · rintro ⟨k, hk, h, h0, rfl⟩
    exact ⟨k, ⟨h, hk⟩, _, rfl, _, ⟨h0, rfl⟩, rfl⟩

theorem jumpTo_eq_ok {r : Byte} {s t : State} :
    jumpTo r s = .ok t ↔ ∃ k : Fin 8, r.toNat = k.val ∧ s.pc + 1 < 256 ∧ t = s.withPc (s.reg k).toNat := by
  simp only [jumpTo, bind_eq_ok, fetchReg_eq_ok, Except.ok.injEq]
  constructor
  · rintro ⟨k, ⟨h, hk⟩, rfl⟩
    exact ⟨k, hk, h, rfl⟩
  · rintro ⟨k, hk, h, rfl⟩
    exact ⟨k, ⟨h, hk⟩, rfl⟩

/-- Which two registers an ALU instruction works on: the handler's own in `fixed` mode, the named ones in `decoded`. -/
def PairIs (s : State) (pair : Nat × Nat) (a b : Byte) (i j : Fin 8) : Prop :=
  (s.cfg.aluOperands = .fixed ∧ i.val = pair.1 ∧ j.val = pair.2) ∨
  (s.cfg.aluOperands = .decoded ∧ s.pc + 2 < 256 ∧ a.toNat = i.val ∧ b.toNat = j.val)

theorem aluPair_of_pairIs {s : State} {pair : Nat × Nat} {a b : Byte} {i j : Fin 8} (h : PairIs s pair a b i j) :
    aluPair s pair a b = .ok (i.val, j.val) := by
  rcases h with ⟨h, hi, hj⟩ | ⟨h, hp, hi, hj⟩
  · rw [aluPair_fixed h, hi, hj]
  · rw [aluPair_decoded h _ hp (hi ▸ i.isLt) (hj ▸ j.isLt), hi, hj]

theorem aluHandler_eq_ok {op : AluOp} {pair : Nat × Nat} {a b : Byte} {s t : State} :
    aluHandler op pair a b s = .ok t ↔
      ∃ i j : Fin 8, PairIs s pair a b i j ∧ ∃ u, alu op i.val j.val s = .ok u ∧ t = u.advance 3 := by
  constructor
  · simp only [aluHandler, bind_eq_ok, Except.ok.injEq]
    rintro ⟨p, hp, u, hu, rfl⟩
    have hu' := hu
    simp only [alu, bind_eq_ok, regIndex_eq_ok] at hu'
    obtain ⟨i, hi, j, hj, -⟩ := hu'
    refine ⟨i, j, ?_, u, by rw [← hi, ← hj]; exact hu, rfl⟩
    unfold aluPair at hp
    split at hp
    · cases hp
      exact .inl ⟨by assumption, hi.symm, hj.symm⟩
    · simp only [bind_eq_ok, fetchOperand_eq_ok, regIndex_eq_ok, Except.ok.injEq] at hp
      obtain ⟨_, ⟨-, rfl⟩, _, ⟨h, rfl⟩, i', hi', j', hj', rfl⟩ := hp
      exact .inr ⟨by assumption, h, by rw [hi', ← hi], by rw [hj', ← hj]⟩
  · rintro ⟨i, j, h, u, hu, rfl⟩
    simp [aluHandler, aluPair_of_pairIs h, hu]

/-! ### Completion -/

/-- Every way a handler completes: the conditions on operands and state, and the state reached. -/
inductive Completes (s : State) : Instr → State → Prop
  | ldi {r imm : Byte} {k : Fin 8} : r.toNat = k.val → s.pc + 2 < 256 →
      Completes s (.ldi r imm) ((s.setReg k imm).advance 3)
  | prn {r : Byte} {k : Fin 8} : r.toNat = k.val → s.pc + 1 < 256 → Completes s (.prn r) ((s.emit (s.reg k)).advance 2)
  | hlt : Completes s .hlt (s.setHalt.advance 1)
  | mul {a b : Byte} {i j : Fin 8} : PairIs s (0, 1) a b i j →
      Completes s (.mul a b) ((s.setReg i (aluMul (s.reg i) (s.reg j))).advance 3)
  | add {a b : Byte} {i j : Fin 8} : PairIs s (0, 0) a b i j →
      Completes s (.add a b) ((s.setReg i (aluAdd (s.reg i) (s.reg j))).advance 3)
  | cmp {a b : Byte} {i j : Fin 8} : PairIs s (0, 1) a b i j →
      Completes s (.cmp a b) ((s.withFl (compareFlags (s.reg i) (s.reg j))).advance 3)
  | push {r : Byte} {k : Fin 8} : r.toNat = k.val → s.pc + 1 < 256 → s.reg 7 ≠ 0 → Completes s (.push r) (pushed s k)
  | pop {r : Byte} {k : Fin 8} : r.toNat = k.val → s.pc + 1 < 256 → (afterPopLoad s k).reg 7 ≠ 255 →
      Completes s (.pop r) (popped s k)
  | jmp {r : Byte} {k : Fin 8} : r.toNat = k.val → s.pc + 1 < 256 → Completes s (.jmp r) (s.withPc (s.reg k).toNat)
  | jeqTaken {r : Byte} {k : Fin 8} : equalBit s.fl = true → r.toNat = k.val → s.pc + 1 < 256 →
      Completes s (.jeq r) (s.withPc (s.reg k).toNat)
  | jeqNotTaken {r : Byte} : equalBit s.fl = false → Completes s (.jeq r) (s.advance 2)
  | jneTaken {r : Byte} {k : Fin 8} : equalBit s.fl = false → r.toNat = k.val → s.pc + 1 < 256 →
      Completes s (.jne r) (s.withPc (s.reg k).toNat)
  | jneNotTaken {r : Byte} : equalBit s.fl = true → Completes s (.jne r) (s.advance 2)

/-- A handler succeeds exactly in the ways listed. -/
theorem handlerResult_eq_ok {i : Instr} {s t : State} : handlerResult i s = .ok t ↔ Completes s i t := by
  constructor
  · intro h
    cases i with
    | ldi r imm =>
      obtain ⟨k, hk, hp, rfl⟩ := handleLdi_eq_ok.1 h
      exact .ldi hk hp
    | prn r =>
      obtain ⟨k, hk, hp, rfl⟩ := handlePrn_eq_ok.1 h
      exact .prn hk hp
    | hlt =>
      cases h
      exact .hlt
    | mul a b =>
      obtain ⟨i, j, hp, u, hu, rfl⟩ := aluHandler_eq_ok.1 h
      rw [alu_mul] at hu
      cases hu
      exact .mul hp
    | add a b =>
      obtain ⟨i, j, hp, u, hu, rfl⟩ := aluHandler_eq_ok.1 h
      rw [alu_add] at hu
      cases hu
      exact .add hp
    | push r =>
      obtain ⟨k, hk, hp, h0, rfl⟩ := handlePush_eq_ok.1 h
      exact .push hk hp h0
    | pop r =>
      obtain ⟨k, hk, hp, h0, rfl⟩ := handlePop_eq_ok.1 h
      exact .pop hk hp h0
    | cmp a b =>
      obtain ⟨i, j, hp, u, hu, rfl⟩ := aluHandler_eq_ok.1 h
      rw [alu_cmp] at hu
      cases hu
      exact .cmp hp
    | jeq r =>
      simp only [handlerResult, handleJeq] at h
      split at h
      · obtain ⟨k, hk, hp, rfl⟩ := jumpTo_eq_ok.1 h
        exact .jeqTaken ‹_› hk hp
      · cases h
        exact .jeqNotTaken (Bool.eq_false_iff.2 ‹_›)
    | jne r =>
      simp only [handlerResult, handleJne] at h
      split at h
      · cases h
        exact .jneNotTaken ‹_›
      · obtain ⟨k, hk, hp, rfl⟩ := jumpTo_eq_ok.1 h
        exact .jneTaken (Bool.eq_false_iff.2 ‹_›) hk hp
    | jmp r =>
      obtain ⟨k, hk, hp, rfl⟩ := jumpTo_eq_ok.1 h
      exact .jmp hk hp
  · intro h
    cases h with
    | ldi hk h => exact handleLdi_eq_ok.2 ⟨_, hk, h, rfl⟩
    | prn hk h => exact handlePrn_eq_ok.2 ⟨_, hk, h, rfl⟩
    | hlt => rfl
    | mul hp => exact aluHandler_eq_ok.2 ⟨_, _, hp, _, alu_mul _ _ _, rfl⟩
    | add hp => exact aluHandler_eq_ok.2 ⟨_, _, hp, _, alu_add _ _ _, rfl⟩
    | cmp hp => exact aluHandler_eq_ok.2 ⟨_, _, hp, _, alu_cmp _ _ _, rfl⟩
    | push hk h h0 => exact handlePush_eq_ok.2 ⟨_, hk, h, h0, rfl⟩
    | pop hk h h0 => exact handlePop_eq_ok.2 ⟨_, hk, h, h0, rfl⟩
    | jmp hk h => exact jumpTo_eq_ok.2 ⟨_, hk, h, rfl⟩
    | jeqTaken h0 hk h => simpa [handlerResult, handleJeq, h0] using jumpTo_eq_ok.2 ⟨_, hk, h, rfl⟩
    | jeqNotTaken h0 => simp [handlerResult, handleJeq, h0]
    | jneTaken h0 hk h => simpa [handlerResult, handleJne, h0] using jumpTo_eq_ok.2 ⟨_, hk, h, rfl⟩
    | jneNotTaken h0 => simp [handlerResult, handleJne, h0]

/-- An instruction that completes ends in the state listed. -/
theorem exec_of_completes {i : Instr} {s t : State} (h : Completes s i t) : exec i s = .next t := by
  rw [exec_eq_complete, handlerResult_eq_ok.2 h, complete_ok]

/-- An instruction completes in one of the ways listed, or faults and only the record changes. -/
theorem exec_cases {i : Instr} {s t : State} (h : exec i s = .next t) :
    Completes s i t ∨ ∃ f, handlerResult i s = .error f ∧ t = s.withFault f :=
  (complete_cases ((exec_eq_complete i s).symm.trans h)).imp handlerResult_eq_ok.1 id

/-! ### Faults -/

/-- Every fault a handler can raise (60_exceptions.md R202 to R204). -/
inductive HandlerFault (s : State) : FaultRecord → Prop
  | first : 256 ≤ s.pc + 1 → HandlerFault s (.boundsFault .memAddress (s.pc + 1 : Nat))
  | second : s.pc + 1 < 256 → 256 ≤ s.pc + 2 → HandlerFault s (.boundsFault .memAddress (s.pc + 2 : Nat))
  | index {r : Byte} : s.pc + 1 < 256 → 8 ≤ r.toNat → HandlerFault s (.boundsFault .regIndex r.toNat)
  | below : HandlerFault s (.boundsFault .spRange (-1))
  | above : HandlerFault s (.boundsFault .spRange 256)

theorem fetchReg_fault {s : State} {r : Byte} {f : FaultRecord} (h : fetchReg s r = .error f) : HandlerFault s f := by
  rcases fetchReg_eq_error.1 h with ⟨hp, rfl⟩ | ⟨hp, hr, rfl⟩
  · exact .first hp
  · exact .index hp hr

theorem jumpTo_fault {s : State} {r : Byte} {f : FaultRecord} (h : jumpTo r s = .error f) : HandlerFault s f := by
  simp only [jumpTo, bind_eq_error, reduceCtorEq, and_false, exists_false, or_false] at h
  exact fetchReg_fault h

theorem aluHandler_fault {op : AluOp} {pair : Nat × Nat} {a b : Byte} {s : State} {f : FaultRecord}
    (hop : ∀ tag, op ≠ .other tag) (h1 : pair.1 < 8) (h2 : pair.2 < 8) (h : aluHandler op pair a b s = .error f) :
    HandlerFault s f := by
  have key : ∀ i j, i < 8 → j < 8 → ∃ u, alu op i j s = .ok u := by
    intro i j hi hj
    cases op with
    | other tag => exact absurd rfl (hop tag)
    | add => simp [alu, regIndex_ok hi, regIndex_ok hj]
    | mul => simp [alu, regIndex_ok hi, regIndex_ok hj]
    | cmp => simp [alu, regIndex_ok hi, regIndex_ok hj]
  simp only [aluHandler, bind_eq_error, reduceCtorEq, and_false, exists_false, or_false] at h
  rcases h with h | ⟨p, hp, h⟩
  · unfold aluPair at h
    split at h
    · cases h
    · simp only [bind_eq_error, fetchOperand_eq_error, fetchOperand_eq_ok, regIndex_eq_error, reduceCtorEq, and_false,
        exists_false, or_false] at h
      rcases h with ⟨h, rfl⟩ | ⟨_, ⟨h1, rfl⟩, ⟨h, rfl⟩ | ⟨_, ⟨h2, rfl⟩, ⟨h, rfl⟩ | ⟨_, -, h, rfl⟩⟩⟩
      · exact .first h
      · exact .second h1 h
      · exact .index h1 h
      · exact .index h1 h
  · have hlt : p.1 < 8 ∧ p.2 < 8 := by
      unfold aluPair at hp
      split at hp
      · cases hp
        exact ⟨h1, h2⟩
      · simp only [bind_eq_ok, Except.ok.injEq] at hp
        obtain ⟨_, -, _, -, i, -, j, -, rfl⟩ := hp
        exact ⟨i.isLt, j.isLt⟩
    obtain ⟨u, hu⟩ := key _ _ hlt.1 hlt.2
    rw [hu] at h
    cases h

/-- A handler raises no fault but those listed. -/
theorem handler_fault {i : Instr} {s : State} {f : FaultRecord} (h : handlerResult i s = .error f) : HandlerFault s f := by
  cases i with
  | ldi r imm =>
    simp only [handlerResult, handleLdi, bind_eq_error, fetchOperand_eq_error, fetchOperand_eq_ok, regIndex_eq_error,
      reduceCtorEq, and_false, exists_false, or_false] at h
    rcases h with ⟨h, rfl⟩ | ⟨_, ⟨h1, rfl⟩, ⟨h, rfl⟩ | ⟨_, -, h, rfl⟩⟩
    · exact .first h
    · exact .second h1 h
    · exact .index h1 h
  | prn r =>
    simp only [handlerResult, handlePrn, bind_eq_error, reduceCtorEq, and_false, exists_false, or_false] at h
    exact fetchReg_fault h
  | hlt => cases h
  | mul a b => exact aluHandler_fault (by simp) (by simp) (by simp) h
  | add a b => exact aluHandler_fault (by simp) (by simp) (by simp) h
  | push r =>
    simp only [handlerResult, handlePush, bind_eq_error, memWrite_ok (byte_lt_256 _), reduceCtorEq, and_false,
      exists_false, or_false] at h
    rcases h with h | ⟨_, -, h⟩
    · exact fetchReg_fault h
    · exact spDecrement_eq_error h ▸ .below
  | pop r =>
    simp only [handlerResult, handlePop, bind_eq_error, memRead_ok (byte_lt_256 _), reduceCtorEq, and_false,
      exists_false, or_false, false_or] at h
    rcases h with h | ⟨_, -, _, -, h⟩
    · exact fetchReg_fault h
    · exact spIncrement_eq_error h ▸ .above
  | cmp a b => exact aluHandler_fault (by simp) (by simp) (by simp) h
  | jeq r =>
    simp only [handlerResult, handleJeq] at h
    split at h
    · exact jumpTo_fault h
    · cases h
  | jne r =>
    simp only [handlerResult, handleJne] at h
    split at h
    · cases h
    · exact jumpTo_fault h
  | jmp r => exact jumpTo_fault h

end Sys2Proof.Machine
end

