-- ==== Sys2Proof/Laws/PerInstr.lean ====
section
/-! SUPPORT. A family of facts proved instruction by instruction: how many bytes each encodes to (spec 30_encoding.md R84). -/
namespace Sys2Proof.Laws.EncodedLength

/-- An instruction encodes to as many bytes as its row of the table says. -/
def Statement (i : Instr) : Prop := ∀ c : Config, (encode c i).length = i.mnemonic.length

theorem ldi (r imm : Byte) : Statement (.ldi r imm) := fun _ => rfl
theorem prn (r : Byte) : Statement (.prn r) := fun _ => rfl
theorem hlt : Statement .hlt := fun _ => rfl
theorem mul (a b : Byte) : Statement (.mul a b) := fun _ => rfl
theorem add (a b : Byte) : Statement (.add a b) := fun _ => rfl
theorem push (r : Byte) : Statement (.push r) := fun _ => rfl
theorem pop (r : Byte) : Statement (.pop r) := fun _ => rfl
theorem cmp (a b : Byte) : Statement (.cmp a b) := fun _ => rfl
theorem jeq (r : Byte) : Statement (.jeq r) := fun _ => rfl
theorem jne (r : Byte) : Statement (.jne r) := fun _ => rfl
theorem jmp (r : Byte) : Statement (.jmp r) := fun _ => rfl

end Sys2Proof.Laws.EncodedLength
end

