-- ==== Sys2Proof/Laws/Table.lean ====
section
/-! SUPPORT. Looking an opcode byte up in the dispatch table (spec 30_encoding.md R82, R83). -/
namespace Sys2Proof

theorem Mnemonic.mem_all (m : Mnemonic) : m ∈ Mnemonic.all := by cases m <;> decide

/-- A row found is the row of that very byte. -/
theorem code_of_lookup {c : Config} {op : Byte} {m : Mnemonic} (h : lookup c op = some m) : c.opcodes.code m = op := by
  simpa using List.find?_some h

/-- A byte not found is no row's. -/
theorem lookup_eq_none {c : Config} {op : Byte} : lookup c op = none ↔ ∀ m, c.opcodes.code m ≠ op := by
  simp [lookup, Mnemonic.mem_all]

/-- The values of an assignment are the codes of the rows. -/
theorem mem_values {o : Opcodes} {op : Byte} : op ∈ o.values ↔ ∃ m, o.code m = op := by
  have h : o.values = Mnemonic.all.map o.code := rfl
  simp [h, Mnemonic.mem_all]

/-- Two rows of a legal assignment differ in their byte. -/
theorem code_injective {c : Config} (hc : c.wf) {m n : Mnemonic} (h : c.opcodes.code m = c.opcodes.code n) : m = n := by
  have hd : (Mnemonic.all.map c.opcodes.code).Nodup := hc.1
  exact List.inj_on_of_nodup_map hd m.mem_all n.mem_all h

/-- Under a legal assignment each row is found by its byte. -/
theorem lookup_code {c : Config} (hc : c.wf) (m : Mnemonic) : lookup c (c.opcodes.code m) = some m := by
  cases h : lookup c (c.opcodes.code m) with
  | none => exact absurd rfl (lookup_eq_none.1 h m)
  | some n => rw [code_injective hc (code_of_lookup h)]

end Sys2Proof
end

