-- ==== Sys2Proof/Laws/Step.lean ====
section
/-! SUPPORT. What fetching and one step can do, said once. -/
namespace Sys2Proof.Machine

/-- The instruction of a row with two bytes of operands at hand; the ones its format lacks are dropped. -/
def instrOf (m : Mnemonic) (b₁ b₂ : Byte) : Instr :=
  match m with
  | .ldi  => .ldi b₁ b₂
  | .prn  => .prn b₁
  | .hlt  => .hlt
  | .mul  => .mul b₁ b₂
  | .add  => .add b₁ b₂
  | .push => .push b₁
  | .pop  => .pop b₁
  | .cmp  => .cmp b₁ b₂
  | .jeq  => .jeq b₁
  | .jne  => .jne b₁
  | .jmp  => .jmp b₁

@[simp] theorem instrOf_mnemonic (m : Mnemonic) (b₁ b₂ : Byte) : (instrOf m b₁ b₂).mnemonic = m := by cases m <;> rfl

/-- Three bytes always hold a whole instruction, if the first is an opcode. -/
theorem decode_window {c : Config} {op b₁ b₂ : Byte} {m : Mnemonic} (h : lookup c op = some m) :
    ∃ rest, decode c [op, b₁, b₂] = .ok (instrOf m b₁ b₂, rest) := by
  cases m <;> simp [decode, h, decodeOperands, oneOperand, twoOperands, instrOf]

theorem decode_window_none {c : Config} {op b₁ b₂ : Byte} (h : lookup c op = none) :
    decode c [op, b₁, b₂] = .error (.invalidOpcode op) := by
  simp [decode, h]

/-- Fetching at 256 or more. -/
theorem fetchInstr_past {s : State} (h : 256 ≤ s.pc) : fetchInstr s = .error (.boundsFault .memAddress s.pc) := by
  simp [fetchInstr, memRead_error h]

/-- Fetching below 256: the opcode byte decides. -/
theorem fetchInstr_of_lookup {s : State} (h : s.pc < 256) :
    fetchInstr s = match lookup s.cfg (s.mem.read s.pc) with
      | none => .error (.invalidOpcode (s.mem.read s.pc) s.pc)
      | some m => .ok (instrOf m (windowByte s 0 1) (windowByte s 0 2)) := by
  have hw : fetchWindow s = [s.mem.read s.pc, windowByte s 0 1, windowByte s 0 2] := by
    simp [fetchWindow, windowByte, h]
  simp only [fetchInstr, memRead_ok h, bind_ok, hw]
  cases hl : lookup s.cfg (s.mem.read s.pc) with
  | none => simp [decode_window_none hl]
  | some m =>
    obtain ⟨rest, hd⟩ := decode_window (b₁ := windowByte s 0 1) (b₂ := windowByte s 0 2) hl
    simp only [hd]

/-- The step of a Running machine. -/
theorem step_of_running {s : State} (h : IsRunning s) :
    step s = match fetchInstr s with
      | .error f => takeFault f s
      | .ok i => exec i s := by
  obtain ⟨h1, h2, h3⟩ := h
  cases hf : fetchInstr s <;> simp [step, h1, h2, h3, hf]

/-- The step before run-start. -/
theorem step_of_not_started {s : State} (h : s.started = false) : step s = .next s.runStart := by
  simp [step, h]

theorem step_of_fault {s : State} {f : FaultRecord} (h1 : s.started = true) (h2 : s.fault = some f) :
    step s = .fault (.afterFault f) := by
  simp [step, h1, h2]

theorem step_of_halt {s : State} (h1 : s.started = true) (h2 : s.fault = none) (h3 : s.halt = true) :
    step s = .fault .afterHalt := by
  simp [step, h1, h2, h3]

/-- Everything a step that answers a next state can do. -/
theorem step_cases {s t : State} (h : step s = .next t) :
    (s.started = false ∧ t = s.runStart) ∨
    (IsRunning s ∧ 256 ≤ s.pc ∧ t = s.withFault (.boundsFault .memAddress s.pc)) ∨
    (IsRunning s ∧ s.pc < 256 ∧ lookup s.cfg (s.mem.read s.pc) = none ∧
      t = s.withFault (.invalidOpcode (s.mem.read s.pc) s.pc)) ∨
    (IsRunning s ∧ s.pc < 256 ∧ ∃ i, lookup s.cfg (s.mem.read s.pc) = some i.mnemonic ∧ exec i s = .next t) := by
  cases h0 : s.started with
  | false =>
    rw [step_of_not_started h0] at h
    cases h
    exact .inl ⟨rfl, rfl⟩
  | true =>
    cases h1 : s.fault with
    | some f =>
      rw [step_of_fault h0 h1] at h
      cases h
    | none =>
      cases h2 : s.halt with
      | true =>
        rw [step_of_halt h0 h1 h2] at h
        cases h
      | false =>
        have hr : IsRunning s := ⟨h0, h1, h2⟩
        rw [step_of_running hr] at h
        refine .inr ?_
        by_cases hp : s.pc < 256
        · rw [fetchInstr_of_lookup hp] at h
          cases hl : lookup s.cfg (s.mem.read s.pc) with
          | none =>
            rw [hl] at h
            cases h
            exact .inr (.inl ⟨hr, hp, rfl, rfl⟩)
          | some m =>
            rw [hl] at h
            exact .inr (.inr ⟨hr, hp, _, by simp, h⟩)
        · rw [fetchInstr_past (by omega)] at h
          cases h
          exact .inl ⟨hr, by omega, rfl⟩

end Sys2Proof.Machine
end

