-- ==== Sys2Proof/Tests/Slice0.lean ====
section
/-! SUPPORT. The model's own tests: words written out from spec/30_encoding.md, vectors of spec/95_test_vectors.md (derived
there from the rules, not from a run), the WellFormed smoke test, and a witness for the hypotheses of every statement. -/
namespace Sys2Proof.Tests
open Sys2Proof.Machine

/-! ### Helpers -/

/-- The state at run-start with nothing loaded (10_state.md R35, last column). -/
def start : State := State.reset.runStart

/-- A state with `pc` set and bytes placed there. -/
def State.at (s : State) (pc : Nat) (bytes : List Byte) : State := { s with pc := pc, mem := s.mem.store pc bytes }

/-- The machine in `decoded` mode. -/
def State.decodedMode (s : State) : State := { s with cfg := { s.cfg with aluOperands := .decoded } }

/-- The next state, if there is one. -/
def nextOf : Host.Outcome State Fault Refusal → Option State
  | .next t => some t
  | .fault _ => none
  | .refused _ => none

/-- One step from `start` with `pc` and bytes set, and one reading of the result. -/
def after {α : Type} (s : State) (pc : Nat) (bytes : List Byte) (f : State → α) : Option α :=
  (nextOf (step (State.at s pc bytes))).map f

/-- Another legal configuration: other opcode bytes, `decoded` mode. -/
def otherConfig : Config where
  opcodes := ⟨1, 2, 3, 4, 5, 6, 7, 8, 9, 10, 255⟩
  aluOperands := .decoded
  exitFailureCode := 7

/-! ### Decoding: every row's word, bit by bit (30_encoding.md R81, R83) -/

theorem test_decode_ldi : decodeTableWord 24 0b11111111_00000011_10000010 = some (.ldi 3 255) := by decide
theorem test_decode_prn : decodeTableWord 16 0b00000101_01000111 = some (.prn 5) := by decide
theorem test_decode_hlt : decodeTableWord 8 0b00000001 = some .hlt := by decide
theorem test_decode_mul : decodeTableWord 24 0b00000011_00000010_10100010 = some (.mul 2 3) := by decide
theorem test_decode_add : decodeTableWord 24 0b00000001_00000110_10100000 = some (.add 6 1) := by decide
theorem test_decode_push : decodeTableWord 16 0b00000111_01000101 = some (.push 7) := by decide
theorem test_decode_pop : decodeTableWord 16 0b00000100_01000110 = some (.pop 4) := by decide
theorem test_decode_cmp : decodeTableWord 24 0b00000000_10000000_10100111 = some (.cmp 128 0) := by decide
theorem test_decode_jeq : decodeTableWord 16 0b11001000_01010101 = some (.jeq 200) := by decide
theorem test_decode_jne : decodeTableWord 16 0b00000010_01010110 = some (.jne 2) := by decide
theorem test_decode_jmp : decodeTableWord 16 0b00000011_01010100 = some (.jmp 3) := by decide
theorem test_decode_refuses : decode Config.default [0x00, 0, 0] = .error (.invalidOpcode 0) ∧
    decode Config.default [0x82, 0x00] = .error (.truncated .ldi) ∧ decode Config.default [] = .error .noBytes := by decide
theorem test_word_bits_above_nbits_are_zero : decodeTableWord 8 0x080082 = some (.ldi 0 0) := by decide

/-! ### WellFormed: each check refuses an ill-formed term (30_encoding.md R81) -/

theorem test_wf_refuses_ldi : Instr.wf Config.default (.ldi 8 0) = false := by decide
theorem test_wf_refuses_prn : Instr.wf Config.default (.prn 255) = false := by decide
theorem test_wf_refuses_stack : Instr.wf Config.default (.push 8) = false ∧ Instr.wf Config.default (.pop 9) = false := by
  decide
theorem test_wf_refuses_jumps : Instr.wf Config.default (.jeq 8) = false ∧ Instr.wf Config.default (.jne 8) = false ∧
    Instr.wf Config.default (.jmp 8) = false := by decide
theorem test_wf_refuses_decoded_first : Instr.wf otherConfig (.mul 8 0) = false ∧ Instr.wf otherConfig (.add 8 0) = false ∧
    Instr.wf otherConfig (.cmp 8 0) = false := by decide
theorem test_wf_refuses_decoded_second : Instr.wf otherConfig (.mul 0 8) = false ∧ Instr.wf otherConfig (.add 0 8) = false ∧
    Instr.wf otherConfig (.cmp 0 8) = false := by decide
theorem test_wf_accepts : Instr.wf Config.default (.mul 200 201) = true ∧ Instr.wf otherConfig (.mul 7 7) = true ∧
    Instr.wf Config.default (.ldi 7 255) = true := by decide
theorem test_config_wf_refuses_a_zero_opcode :
    ¬({ Config.default with opcodes := { Opcodes.default with hlt := 0 } } : Config).wf := by decide
theorem test_config_wf_refuses_equal_opcodes :
    ¬({ Config.default with opcodes := { Opcodes.default with add := 0x82 } } : Config).wf := by decide
theorem test_config_wf_refuses_exit_code_zero : ¬({ Config.default with exitFailureCode := 0 } : Config).wf := by decide
theorem test_mem_wf_refuses : ¬Memory.wf [(3, 1), (2, 1)] ∧ ¬Memory.wf [(3, 0)] ∧ ¬Memory.wf [(256, 1)] := by decide

/-! ### Vectors of 95_test_vectors.md, at most two an instruction -/

/-- V11. -/
theorem test_ldi_is_not_sign_extended : after start 0 [0x82, 0x03, 0xFF] (fun t => (t.reg 3, t.pc)) = some (0xFF, 3) := by
  decide
/-- V18. -/
theorem test_ldi_fetches_before_it_checks : after start 254 [0x82, 0x09] (fun t => (t.fault, t.pc)) =
    some (some (.boundsFault .memAddress 256), 254) := by decide
/-- V23. -/
theorem test_prn_emits_the_stack_pointer : after start 0 [0x47, 0x07] (fun t => (t.out, t.outputLines)) =
    some ([244], ["244"]) := by decide
/-- V24. -/
theorem test_prn_bad_index : after start 0 [0x47, 0x08] (fun t => (t.out, t.fault)) =
    some ([], some (.boundsFault .regIndex 8)) := by decide
/-- V61. -/
theorem test_hlt_at_the_top : after start 255 [0x01] (fun t => (t.halt, t.pc, t.runState)) = some (true, 256, .halted) := by
  decide
/-- V39a. -/
theorem test_mul_keeps_the_low_byte : after ((start.setReg 0 200).setReg 1 3) 0 [0xA2, 0, 1] (fun t => (t.reg 0, t.reg 1)) =
    some (88, 3) := by decide
/-- V39g. -/
theorem test_mul_decoded_checks_the_first_index_first :
    after (State.decodedMode start) 0 [0xA2, 0xC8, 0xC9] (fun t => t.fault) = some (some (.boundsFault .regIndex 200)) := by
  decide
/-- V3B, V3Bd. -/
theorem test_add_in_both_modes :
    after ((start.setReg 0 250).setReg 1 10) 0 [0xA0, 0, 1] (fun t => t.reg 0) = some 244 ∧
    after (State.decodedMode ((start.setReg 0 250).setReg 1 10)) 0 [0xA0, 0, 1] (fun t => t.reg 0) = some 4 := by decide
/-- V3G. -/
theorem test_add_fixed_at_the_top : after (start.setReg 0 255) 255 [0xA0] (fun t => (t.reg 0, t.pc, t.fault)) =
    some (254, 258, none) := by decide
/-- V33, V31. -/
theorem test_cmp_is_unsigned : after (((start.setReg 0 0x80).setReg 1 0x7F).withFl 1) 0 [0xA7, 0, 1] (fun t => t.fl) =
    some 0x02 := by decide
/-- V35, V35d. -/
theorem test_cmp_in_both_modes :
    after ((((start.setReg 0 1).setReg 1 2).setReg 2 9).setReg 3 9) 0 [0xA7, 2, 3] (fun t => t.fl) = some 4 ∧
    after (State.decodedMode ((((start.setReg 0 1).setReg 1 2).setReg 2 9).setReg 3 9)) 0 [0xA7, 2, 3] (fun t => t.fl) =
      some 1 := by decide
/-- V42. -/
theorem test_push_r7_stores_the_decremented_value : after start 0 [0x45, 7] (fun t => (t.reg 7, t.mem.read 0xF3)) =
    some (0xF3, 0xF3) := by decide
/-- V45. -/
theorem test_push_at_zero : after (start.setReg 7 0) 0 [0x45, 0] (fun t => (t.fault, t.reg 7)) =
    some (some (.boundsFault .spRange (-1)), 0) := by decide
/-- V43. -/
theorem test_pop_r7_adds_one : after ((start.setReg 7 0xF3).setCell 0xF3 0x10) 0 [0x46, 7] (fun t => t.reg 7) =
    some 0x11 := by decide
/-- V47. -/
theorem test_pop_at_the_top : after ((start.setReg 7 255).setCell 255 5) 0 [0x46, 0] (fun t => (t.fault, t.reg 0, t.reg 7)) =
    some (some (.boundsFault .spRange 256), 0, 255) := by decide
/-- V50, V52. -/
theorem test_jeq_reads_bit_zero_only :
    after ((start.setReg 2 0x13).withFl 1) 0x0F [0x55, 2] (fun t => t.pc) = some 0x13 ∧
    after ((start.setReg 2 0x13).withFl 2) 0x0F [0x55, 2] (fun t => t.pc) = some 0x11 := by decide
/-- V5F. -/
theorem test_jeq_not_taken_at_the_top : after start 255 [0x55] (fun t => (t.pc, t.fault)) = some (257, none) := by decide
/-- V54, V57. -/
theorem test_jne_complements :
    after (start.setReg 0 6) 3 [0x56, 0] (fun t => t.pc) = some 6 ∧
    after ((start.setReg 2 9).withFl 1) 15 [0x56, 2] (fun t => t.pc) = some 17 := by decide
/-- V5E. -/
theorem test_jne_not_taken_ignores_a_bad_operand : after (start.withFl 1) 0 [0x56, 0xC8] (fun t => (t.pc, t.fault)) =
    some (2, none) := by decide
/-- V5A. -/
theorem test_jmp_to_the_top : after (start.setReg 1 0xFF) 0 [0x54, 1] (fun t => t.pc) = some 0xFF := by decide
/-- V5B. -/
theorem test_jmp_bad_index : after start 0 [0x54, 8] (fun t => (t.fault, t.pc)) = some (some (.boundsFault .regIndex 8), 0) := by
  decide
/-- V2, E10. -/
theorem test_invalid_opcode : after start 0x10 [0xFF] (fun t => (t.fault, t.pc, t.diagnostic)) =
    some (some (.invalidOpcode 0xFF 0x10), 0x10, some (0xFF, 0x10)) := by decide
/-- R242: the first step is run-start. -/
theorem test_run_start : (nextOf (step State.reset)).map (fun t => (t.reg 7, t.reg 0, t.pc)) = some (0xF4, 0, 0) := by decide
/-- R241: a loaded byte is read back, and one past the program is 0 (V73). -/
theorem test_load : (match State.reset.load [0x82, 0, 1] with
    | .ok s => some (s.mem.read 0, s.mem.read 2, s.mem.read 3, s.reg 7)
    | .error _ => none) = some (0x82, 1, 0, 0) := by decide

/-- R245: the host may not load twice, nor after run-start. -/
theorem test_load_once : (match State.reset.load [0x82] with
    | .ok s => some (s.loaded, s.load [1], s.runStart.load [1])
    | .error _ => none) = some (true, .error .alreadyLoaded, .error .runStarted) := rfl

/-! ### Witnesses: the hypotheses of each statement can be met -/

theorem witness_DecodeOfEncode : Config.default.wf ∧ otherConfig.wf := by decide

theorem witness_EncodeOfDecode : decode otherConfig [255, 200, 9] = .ok (.jmp 200, [9]) := by decide

theorem witness_OpcodesOutsideTheTableAreIllegal : (0 : Byte) ∉ Opcodes.default.values ∧ (0xFF : Byte) ∉ Opcodes.default.values := by
  decide

theorem witness_LengthFromTheOpcodeByteAlone_decode : decode Config.default (0x01 :: [9]) = .ok (.hlt, [9]) := by decide

theorem witness_LengthFromTheOpcodeByteAlone_plain : ∃ t, start.fault = none ∧ exec (.mul 200 201) start = .next t ∧ t.fault = none :=
  ⟨_, rfl, rfl, rfl⟩

theorem witness_LengthFromTheOpcodeByteAlone_jumps : (∃ t, exec (.jeq 200) start = .next t ∧ t.fault = none) ∧
    equalBit start.fl = false ∧ (∃ t, exec (.jne 200) (start.withFl 1) = .next t ∧ t.fault = none) ∧
    equalBit (start.withFl 1).fl = true :=
  ⟨⟨_, rfl, rfl⟩, rfl, ⟨_, rfl, rfl⟩, rfl⟩

theorem witness_StepRunsTheDecodedInstruction : IsRunning (State.at start 255 [0xA0]) ∧ (State.at start 255 [0xA0]).pc < 256 ∧
    decode (State.at start 255 [0xA0]).cfg (fetchWindow (State.at start 255 [0xA0])) = .ok (.add 0 0, []) := by decide

/-- At 254 the second operand byte is missing, at 255 both are: any bytes stand in for them. -/
theorem witness_OperandBytesPastTheTopNeverMatter :
    (IsRunning (State.at start 254 [0x82, 9]) ∧ (State.at start 254 [0x82, 9]).mem.read 255 = 9 ∧
      decode Config.default [(State.at start 254 [0x82, 9]).mem.read 254, 9, 77] = .ok (.ldi 9 77, [])) ∧
    (IsRunning (State.at start 255 [0x45]) ∧
      decode Config.default [(State.at start 255 [0x45]).mem.read 255, 77, 78] = .ok (.push 77, [78])) := by decide

theorem witness_DispatchByTheWholeOpcodeByte :
    (IsRunning (State.at start 255 [0x45]) ∧ lookup Config.default ((State.at start 255 [0x45]).mem.read 255) = some .push) ∧
    (IsRunning start ∧ start.pc < 256 ∧ ∀ m ∈ Mnemonic.all, start.cfg.opcodes.code m ≠ start.mem.read start.pc) := by decide

theorem witness_FetchPastTheTopFaults : IsRunning (State.at start 256 []) ∧ IsRunning (State.at start 258 []) := by decide

theorem witness_TerminalStatesHaveNoStep :
    ((start.withFault (.invalidOpcode 0 0)).started = true ∧
      (start.withFault (.invalidOpcode 0 0)).fault = some (.invalidOpcode 0 0)) ∧
    (start.setHalt.started = true ∧ start.setHalt.fault = none ∧ start.setHalt.halt = true) := by decide

theorem witness_LoaderFillsMemoryFromZero : (List.replicate 256 (1 : Byte)).length ≤ 256 ∧
    256 < (List.replicate 257 (1 : Byte)).length ∧ start.started = true :=
  ⟨(List.length_replicate ..).le, Nat.lt_of_lt_of_eq (by decide) (List.length_replicate ..).symm, rfl⟩

theorem witness_RunStartSetsTheStackPointer : State.reset.started = false ∧ ∃ s, State.reset.load [1, 2] = .ok s :=
  ⟨rfl, _, rfl⟩

theorem witness_MemoryReadsTheLastWrite : (start.setCell 255 1).mem.wf ∧ ∃ s, State.reset.load [1] = .ok s :=
  ⟨by decide, _, rfl⟩

theorem witness_AluAddWraps : (match alu .add 3 3 (start.setReg 3 200) with
    | .ok t => some (t.reg 3).toNat
    | .error _ => none) = some 144 := by decide

theorem witness_AluMulKeepsTheLowByte : (match alu .mul 3 3 (start.setReg 3 200) with
    | .ok t => some (t.reg 3).toNat
    | .error _ => none) = some 64 := by decide

theorem witness_AluCompareSetsOneFlag : ((start.reg 0).toNat = (start.reg 1).toNat) ∧
    ((start.reg 0).toNat < (start.reg 7).toNat) := by decide

/-- Only a state that no run reaches meets it: the record is there before run-start. -/
theorem witness_UnsupportedOperationIsUnreachable :
    ∃ t, step (State.reset.withFault (.unsupportedOperation 5)) = .next t ∧ t.fault = some (.unsupportedOperation 5) :=
  ⟨_, rfl, rfl⟩

theorem witness_FlagsSurviveUntilTheNextCmp :
    (∃ t, alu .add (0 : Fin 8).val (7 : Fin 8).val start = .ok t) ∧ (∃ t, alu .mul (7 : Fin 8).val (7 : Fin 8).val start = .ok t) ∧
    (∃ t, alu .cmp (0 : Fin 8).val (7 : Fin 8).val start = .ok t) ∧
    (∀ i ∈ [Instr.ldi 0 1, .push 0, .pop 1, .prn 1, .add 0 0, .mul 0 1], i.mnemonic ≠ .cmp) ∧
    ∃ t, Executes [.ldi 0 1, .push 0, .pop 1, .prn 1, .add 0 0, .mul 0 1] start t :=
  ⟨⟨_, rfl⟩, ⟨_, rfl⟩, ⟨_, rfl⟩, by decide, _, _, rfl, _, rfl, _, rfl, _, rfl, _, rfl, _, rfl, rfl⟩

theorem witness_RunningMachinesAlwaysStep : IsRunning start := by decide

theorem witness_RegisterFileInterface : 8 ≤ 8 := le_refl 8

/-- The last address with both operand bytes, the last register. -/
theorem witness_LdiLoadsTheImmediate : (7 : Byte).toNat = (7 : Fin 8).val ∧ (State.at start 253 []).pc + 2 < 256 := by decide

theorem witness_PrnEmitsTheRegister : (7 : Byte).toNat = (7 : Fin 8).val ∧ (State.at start 254 []).pc + 1 < 256 := by decide

/-- The last address, operand bytes missing. -/
theorem witness_MulAndAddOnFixedRegisters : (State.at start 255 []).cfg.aluOperands = .fixed := by decide

theorem witness_MulAndAddOnDecodedRegisters : (State.decodedMode (State.at start 253 [])).cfg.aluOperands = .decoded ∧
    (7 : Byte).toNat = (7 : Fin 8).val ∧ (0 : Byte).toNat = (0 : Fin 8).val ∧
    (State.decodedMode (State.at start 253 [])).pc + 2 < 256 := by decide

theorem witness_JmpAlwaysJumps : (7 : Byte).toNat = (7 : Fin 8).val ∧ (State.at start 254 []).pc + 1 < 256 := by decide

theorem witness_JeqJumpsIffEqual :
    (((State.at start 254 []).withFl 1).fl.getLsbD 0 = true ∧ (7 : Byte).toNat = (7 : Fin 8).val ∧
      ((State.at start 254 []).withFl 1).pc + 1 < 256) ∧
    ((State.at start 255 []).withFl 4).fl.getLsbD 0 = false := by decide

theorem witness_JneJumpsIffNotEqual :
    (((State.at start 254 []).withFl 2).fl.getLsbD 0 = false ∧ (7 : Byte).toNat = (7 : Fin 8).val ∧
      ((State.at start 254 []).withFl 2).pc + 1 < 256) ∧
    ((State.at start 255 []).withFl 1).fl.getLsbD 0 = true := by decide

theorem witness_JeqAndJneAreComplements : (start.withFl 1).fl.getLsbD 0 = true ∧ start.fl.getLsbD 0 = false := by decide

theorem witness_HltHaltsTheRun : IsRunning (State.at start 255 [1]) ∧ start.cfg.wf ∧ (State.at start 255 [1]).pc < 256 ∧
    (State.at start 255 [1]).mem.read 255 = start.cfg.opcodes.hlt := by decide

theorem witness_CmpComparesUnsigned :
    (start.cfg.aluOperands = .fixed ∧ (start.reg 0).toNat = (start.reg 1).toNat) ∧
    ((start.setReg 0 0x80).reg 1).toNat < ((start.setReg 0 0x80).reg 0).toNat ∧
    ((start.setReg 1 0xFF).reg 0).toNat < ((start.setReg 1 0xFF).reg 1).toNat ∧
    ((State.decodedMode (State.at start 253 [])).cfg.aluOperands = .decoded ∧
      (State.decodedMode (State.at start 253 [])).pc + 2 < 256) := by decide

theorem witness_PushStoresAtTheNewStackPointer : (State.at (start.setReg 7 1) 254 []).reg 7 ≠ 0 ∧
    (State.at (start.setReg 7 1) 254 []).mem.wf ∧ (State.at (start.setReg 7 1) 254 []).pc + 1 < 256 := by decide

theorem witness_PopLoadsFromTheOldStackPointer :
    (State.at (start.setReg 7 254) 254 []).reg 7 ≠ 255 ∧
    ((start.setReg 7 255).setCell 255 254).mem.read ((start.setReg 7 255).reg 7).toNat ≠ 255 := by decide

theorem witness_OneOperandFaults : 256 ≤ (State.at start 255 []).pc + 1 ∧ (State.at start 254 []).pc + 1 < 256 ∧
    8 ≤ (8 : Byte).toNat ∧ (start.withFl 1).fl.getLsbD 0 = true ∧ start.fl.getLsbD 0 = false := by decide

/-- Clause by clause: no operand byte, only the first, both with a bad index. -/
theorem witness_LdiFaults : 256 ≤ (State.at start 255 []).pc + 1 ∧
    ((State.at start 254 []).pc + 1 < 256 ∧ 256 ≤ (State.at start 254 []).pc + 2) ∧
    ((State.at start 253 []).pc + 2 < 256 ∧ 8 ≤ (8 : Byte).toNat) := by decide

/-- Clause by clause: no operand byte, only the first, both with a bad first index, with a bad second index only. -/
theorem witness_DecodedAluFaults : (∀ pc, (State.decodedMode (State.at start pc [])).cfg.aluOperands = .decoded) ∧
    256 ≤ (State.decodedMode (State.at start 255 [])).pc + 1 ∧
    ((State.decodedMode (State.at start 254 [])).pc + 1 < 256 ∧ 256 ≤ (State.decodedMode (State.at start 254 [])).pc + 2) ∧
    ((State.decodedMode (State.at start 253 [])).pc + 2 < 256 ∧ 8 ≤ (8 : Byte).toNat) ∧
    ((7 : Byte).toNat < 8 ∧ 8 ≤ (255 : Byte).toNat) :=
  ⟨fun _ => rfl, by decide, by decide, by decide, by decide⟩

theorem witness_FixedModeIgnoresOperandBytes : (State.at start 255 []).cfg.aluOperands = .fixed := by decide

theorem witness_StackPointerNeverWraps : (start.setReg 7 0).reg 7 = 0 ∧ (start.setReg 7 255).reg 7 = 255 ∧
    ((start.setReg 7 0x50).setCell 0x50 255).mem.read ((start.setReg 7 0x50).reg 7).toNat = 255 ∧ start.pc + 1 < 256 := by decide

theorem witness_FaultsArePrecise : IsRunning start ∧ ∃ t, step start = .next t ∧ t.fault = some (.invalidOpcode 0 0) :=
  ⟨by decide, _, rfl, rfl⟩

theorem witness_WellFormedInstructionsNeverFaultOnAnIndex :
    Instr.wf start.cfg (.ldi 7 0) = true ∧ start.fault = none ∧ ∃ t, exec (.ldi 7 0) start = .next t :=
  ⟨by decide, rfl, _, rfl⟩

theorem witness_OperandModesAgree : (State.at start 253 []).pc + 2 < 256 ∧ (State.at start 253 []).cfg.aluOperands = .fixed ∧
    ∃ t, exec (.cmp 0 1) (State.at start 253 []) = .next t :=
  ⟨by decide, rfl, _, rfl⟩

theorem witness_HaltIsSetOnlyByHlt : (∃ t, exec .hlt start = .next t) ∧ (∃ t, exec (.jmp 0) start = .next t) ∧
    (State.reset.started = false ∧ ∃ t, step State.reset = .next t) ∧
    (start.setHalt.started = true ∧ start.setHalt.fault = none ∧ start.setHalt.halt = true) :=
  ⟨⟨_, rfl⟩, ⟨_, rfl⟩, ⟨rfl, _, rfl⟩, rfl, rfl, rfl⟩

theorem witness_OnlyPushWritesAndOnlyPopReadsData : start.mem.wf ∧ (∃ t, exec (.push 7) start = .next t) ∧
    (∃ t, exec (.pop 7) start = .next t) ∧ Memory.read [(1, 1)] (start.reg 7).toNat = start.mem.read (start.reg 7).toNat :=
  ⟨by decide, ⟨_, rfl⟩, ⟨_, rfl⟩, by decide⟩

theorem witness_OutputOnlyGrows : (∃ t, exec (.prn 7) start = .next t ∧ t.out = [0xF4]) ∧
    (∃ t, exec (.prn 8) start = .next t ∧ t.out = []) ∧ ∃ t, StepsTo 2 State.reset t :=
  ⟨⟨_, rfl, rfl⟩, ⟨_, rfl, rfl⟩, _, _, rfl, _, rfl, rfl⟩

theorem witness_ConfigurationNeverChanges : (∃ t, State.reset.load [0x01] = .ok t) ∧ ∃ t, StepsTo 2 State.reset t :=
  ⟨⟨_, rfl⟩, _, _, rfl, _, rfl, rfl⟩

/-- PRN of register 2 depends on register 2 alone: the others may differ. -/
theorem witness_RegistersReadAndWritten : start.fault = none ∧ (∃ t, exec (.prn 2) start = .next t ∧ t.fault = none) ∧
    (start.setReg 3 9 = { start with regs := (start.setReg 3 9).regs }) ∧
    ∀ k ∈ registersRead start.cfg start.fl (.prn 2), (start.setReg 3 9).reg k = start.reg k :=
  ⟨rfl, ⟨_, rfl, rfl⟩, rfl, by decide⟩

/-- Program P4: the PUSH at 6 stores at 8, the next opcode; a PUSH at 5 with that stack pointer stores an operand byte. -/
theorem witness_FetchSeesThePushedByte :
    (IsRunning (State.at (start.setReg 7 9) 6 [0x45, 0]) ∧ (State.at (start.setReg 7 9) 6 [0x45, 0]).mem.wf ∧
      ∃ t, exec (.push 0) (State.at (start.setReg 7 9) 6 [0x45, 0]) = .next t ∧ t.pc + 0 = (t.reg 7).toNat) ∧
    (∃ t, exec (.push 0) (State.at (start.setReg 7 9) 5 [0x45, 0]) = .next t ∧ t.pc + 1 = (t.reg 7).toNat) ∧
    (∃ t, exec (.push 0) (State.at start 6 [0x45, 0]) = .next t ∧ t.pc + 2 ≠ (t.reg 7).toNat) :=
  ⟨⟨by decide, by decide, _, rfl, by decide⟩, ⟨_, rfl, by decide⟩, _, rfl, by decide⟩

theorem witness_PushThenPopRestores : IsRunning (State.at start 252 [0x45, 7, 0x46, 7]) ∧
    (State.at start 252 [0x45, 7, 0x46, 7]).mem.wf ∧ start.cfg.wf ∧ (State.at start 252 [0x45, 7, 0x46, 7]).pc + 3 < 256 ∧
    (State.at start 252 [0x45, 7, 0x46, 7]).mem.read 252 = start.cfg.opcodes.push ∧
    (State.at start 252 [0x45, 7, 0x46, 7]).mem.read 253 = 7 ∧ (7 : Byte).toNat = (7 : Fin 8).val ∧
    (State.at start 252 [0x45, 7, 0x46, 7]).mem.read 254 = start.cfg.opcodes.pop ∧
    (State.at start 252 [0x45, 7, 0x46, 7]).mem.read 255 = 7 ∧
    (State.at start 252 [0x45, 7, 0x46, 7]).reg 7 ≠ 0 ∧ (0xF4 - 1 : Nat) ≠ 254 ∧ (0xF4 - 1 : Nat) ≠ 255 := by decide

/-- A state the invariant holds in, from which a handler steps. -/
theorem witness_EveryStepKeepsTheInvariant : Inv (State.at start 0 [0x45, 0]) ∧
    ∃ t, step (State.at start 0 [0x45, 0]) = .next t ∧ t.reg 7 = 0xF3 :=
  ⟨⟨by decide, by decide, by decide, by decide, fun _ => rfl, by decide, fun _ h => by cases h⟩, _, rfl, rfl⟩

theorem witness_EveryRunOfALoadedProgramKeepsTheInvariant : otherConfig.wf ∧
    ∃ s t, ({ State.reset with cfg := otherConfig } : State).load [3] = .ok s ∧ StepsTo 2 s t ∧ t.halt = true :=
  ⟨by decide, _, _, rfl, ⟨_, rfl, _, rfl, rfl⟩, rfl⟩

/-- Each of the three outcomes occurs: a halted run, a faulted run, and `JMP R0` at 0, which returns to its own state. -/
theorem witness_HaltedRunsAreSafe : (State.at start 0 [1]).started = true ∧ EndsHalted (State.at start 0 [1]) :=
  ⟨rfl, 1, _, ⟨_, rfl, rfl⟩, rfl⟩

theorem witness_ARunHasExactlyOneOutcome_faulted : EndsFaulted start := ⟨1, _, ⟨_, rfl, rfl⟩, rfl⟩

theorem witness_ARunHasExactlyOneOutcome_never_ends : NeverEnds (State.at start 0 [0x54, 0]) := by
  intro n
  refine ⟨State.at start 0 [0x54, 0], ?_, rfl⟩
  induction n with
  | zero => rfl
  | succ n ih => exact ⟨_, rfl, ih⟩

theorem witness_ARunHasExactlyOneOutcome_same_memory : ∃ s t, State.reset.load [1] = .ok s ∧ State.reset.load [1, 0] = .ok t ∧
    ∀ a, s.mem.read a = t.mem.read a :=
  ⟨_, _, rfl, rfl, fun _ => rfl⟩

theorem witness_ExitIndicationFollowsTheRunState : start.cfg.wf ∧ start.runState = .running ∧
    start.setHalt.runState = .halted ∧ (start.withFault (.invalidOpcode 0 0)).runState = .faulted := by decide

/-- A load succeeds, and the machine goes on from there. -/
theorem witness_OneProgramIsLoaded : ∃ t, State.reset.load [1] = .ok t ∧ StepsTo 0 t t ∧ ∃ u, StepsTo 2 t u :=
  ⟨_, rfl, rfl, _, _, rfl, _, rfl, rfl⟩

end Sys2Proof.Tests
end

section
/-! PROOFS. Memory behind its checked interface (spec 20_memory.md R51): what `memRead` answers at reset, after a load
and after a write. -/
namespace Sys2Proof.Machine

/-- Past its end a program's bytes are 0, as reset memory is, so one equation covers the cells it fills and the rest. -/
theorem read_load_reset {s : State} {prog : List Byte} (h : State.reset.load prog = .ok s) {a : Nat} (ha : a < 256) :
    s.mem.read a = prog.getD a 0 := by
  obtain ⟨-, -, -, rfl⟩ := load_cases h
  rw [Memory.read_store reset_mem_wf 0 prog a ha]
  split
  · simp
  next hout =>
    have hlen : prog.length ≤ a := by omega
    rw [List.getD_eq_default _ _ hlen]
    rfl

theorem memRead_setCell_same {s : State} (hs : s.mem.wf) {a : Nat} (ha : a < 256) (v : Byte) :
    memRead (s.setCell a v) a = .ok v := by
  rw [memRead_ok ha, setCell_mem, Memory.read_write hs, if_pos rfl]

theorem memRead_setCell_ne {s : State} (hs : s.mem.wf) {a b : Nat} (hne : b ≠ a) (v : Byte) :
    memRead (s.setCell a v) b = memRead s b := by
  simp only [memRead, setCell_mem, Memory.read_write hs, if_neg hne]

/-- Settles O15: the cell of each read is known at reset, from `read_load_reset` after a load, and from the two
`memRead_setCell` rules after a write, whose result `setCell` changes memory only. -/
theorem memoryReadsTheLastWrite : Obligations.MemoryReadsTheLastWrite := by
  refine ⟨fun a ha => memRead_ok ha, fun prog s hload a ha => ?_, fun s a v hs ha => ?_⟩
  · rw [memRead_ok ha, read_load_reset hload ha]
  · exact ⟨s.setCell a v, memWrite_ok ha v, memRead_setCell_same hs ha v,
      fun b _ hne => memRead_setCell_ne hs hne v, rfl⟩

end Sys2Proof.Machine
end

section
/-! PROOFS. The length of an instruction (spec 30_encoding.md R84): the bytes the decoder consumes, and the increment of
`pc` by a handler that completes without jumping. -/
namespace Sys2Proof

/-! ### What a successful decode consumed -/

theorem oneOperand_eq_ok {m : Mnemonic} {mk : Byte → Instr} {bytes : List Byte} {i : Instr} {tail : List Byte} :
    oneOperand m mk bytes = .ok (i, tail) ↔ ∃ r, bytes = r :: tail ∧ i = mk r := by
  cases bytes with
  | nil => simp [oneOperand]
  | cons r rest => simp [oneOperand, eq_comm, and_comm]

theorem twoOperands_eq_ok {m : Mnemonic} {mk : Byte → Byte → Instr} {bytes : List Byte} {i : Instr} {tail : List Byte} :
    twoOperands m mk bytes = .ok (i, tail) ↔ ∃ a b, bytes = a :: b :: tail ∧ i = mk a b := by
  match bytes with
  | [] => simp [twoOperands]
  | [_] => simp [twoOperands]
  | a :: b :: rest => simp [twoOperands, eq_comm, and_comm]

theorem decodeOperands_eq_ok {m : Mnemonic} {bytes : List Byte} {i : Instr} {tail : List Byte}
    (h : decodeOperands m bytes = .ok (i, tail)) : i.mnemonic = m ∧ bytes = i.operands ++ tail := by
  cases m with
  | hlt =>
    cases h
    exact ⟨rfl, rfl⟩
  | prn | push | pop | jeq | jne | jmp =>
    obtain ⟨r, rfl, rfl⟩ := oneOperand_eq_ok.1 h
    exact ⟨rfl, rfl⟩
  | ldi | mul | add | cmp =>
    obtain ⟨a, b, rfl, rfl⟩ := twoOperands_eq_ok.1 h
    exact ⟨rfl, rfl⟩

theorem decode_cons_eq_ok {c : Config} {op : Byte} {rest : List Byte} {i : Instr} {tail : List Byte}
    (h : decode c (op :: rest) = .ok (i, tail)) : lookup c op = some i.mnemonic ∧ rest = i.operands ++ tail := by
  cases hl : lookup c op with
  | none => simp [decode, hl] at h
  | some m =>
    simp only [decode, hl] at h
    obtain ⟨rfl, hrest⟩ := decodeOperands_eq_ok h
    exact ⟨rfl, hrest⟩

theorem encode_append_of_decode_cons {c : Config} {op : Byte} {rest : List Byte} {i : Instr} {tail : List Byte}
    (h : decode c (op :: rest) = .ok (i, tail)) : encode c i ++ tail = op :: rest := by
  obtain ⟨hl, hrest⟩ := decode_cons_eq_ok h
  rw [encode, code_of_lookup hl, hrest, List.cons_append]

theorem encode_length (c : Config) : ∀ i : Instr, (encode c i).length = i.mnemonic.length
  | .ldi r imm => Laws.EncodedLength.ldi r imm c
  | .prn r => Laws.EncodedLength.prn r c
  | .hlt => Laws.EncodedLength.hlt c
  | .mul a b => Laws.EncodedLength.mul a b c
  | .add a b => Laws.EncodedLength.add a b c
  | .push r => Laws.EncodedLength.push r c
  | .pop r => Laws.EncodedLength.pop r c
  | .cmp a b => Laws.EncodedLength.cmp a b c
  | .jeq r => Laws.EncodedLength.jeq r c
  | .jne r => Laws.EncodedLength.jne r c
  | .jmp r => Laws.EncodedLength.jmp r c

theorem length_of_decode_cons {c : Config} {op : Byte} {rest : List Byte} {i : Instr} {tail : List Byte}
    (h : decode c (op :: rest) = .ok (i, tail)) : (op :: rest).length = i.mnemonic.length + tail.length := by
  rw [← encode_append_of_decode_cons h, List.length_append, encode_length]

end Sys2Proof

namespace Sys2Proof.Machine

/-! ### The increment of `pc` -/

/-- The row's handler, completing with these flags, puts a register's value in `pc` (45_control_flow.md R171 to R174). -/
def JumpTaken (fl : Byte) (m : Mnemonic) : Prop :=
  m = .jmp ∨ (m = .jeq ∧ equalBit fl = true) ∨ (m = .jne ∧ equalBit fl = false)

theorem Completes.pc_of_not_jumpTaken {s t : State} {i : Instr} (h : Completes s i t)
    (hj : ¬ JumpTaken s.fl i.mnemonic) : t.pc = s.pc + i.mnemonic.length := by
  cases h with
  | ldi | prn | hlt | mul | add | cmp | push | pop | jeqNotTaken | jneNotTaken => rfl
  | jmp => exact absurd (.inl rfl) hj
  | jeqTaken hfl => exact absurd (.inr (.inl ⟨rfl, hfl⟩)) hj
  | jneTaken hfl => exact absurd (.inr (.inr ⟨rfl, hfl⟩)) hj

/-- A handler that raises a fault leaves it on record, so without a record the instruction has completed. -/
theorem completes_of_exec {i : Instr} {s t : State} (h : exec i s = .next t) (ht : t.fault = none) :
    Completes s i t := by
  rcases exec_cases h with hc | ⟨f, -, rfl⟩
  · exact hc
  · cases ht

/-- Settles O4: a decoded byte list is the encoding of its instruction and the tail, and every completion but a taken
jump advances `pc` by the length of its row. -/
theorem lengthFromTheOpcodeByteAlone : Obligations.LengthFromTheOpcodeByteAlone := by
  refine ⟨by decide, fun c op rest i tail h => ⟨(decode_cons_eq_ok h).1, length_of_decode_cons h⟩, ?_⟩
  intro i s t _ hexec ht
  have hpc : ¬ JumpTaken s.fl i.mnemonic → t.pc = s.pc + i.mnemonic.length :=
    (completes_of_exec hexec ht).pc_of_not_jumpTaken
  refine ⟨fun hjeq hjne hjmp => hpc (by simp [JumpTaken, hjeq, hjne, hjmp]), fun hm hfl => ?_, fun hm hfl => ?_⟩
  · rw [hm] at hpc
    exact hpc (by simp [JumpTaken, hfl])
  · rw [hm] at hpc
    exact hpc (by simp [JumpTaken, hfl])

end Sys2Proof.Machine
end

section
/-! PROOFS. Runs and their outcomes (spec 40_dispatch.md R115, R116): a run is deterministic, goes on exactly while the
machine is Running, and begins in a state the cells and the configuration determine. -/
namespace Sys2Proof.Machine

/-! ### Steps of a started machine -/

theorem exec_next (i : Instr) (s : State) : ∃ t, exec i s = .next t :=
  exec_eq_complete i s ▸ complete_next s (handlerResult i s)

theorem step_next_of_running {s : State} (h : IsRunning s) : ∃ t, step s = .next t := by
  rw [step_of_running h]
  cases fetchInstr s with
  | error f => exact ⟨_, rfl⟩
  | ok i => exact exec_next i s

theorem isRunning_of_step {s t : State} (hs : s.started = true) (h : step s = .next t) : IsRunning s := by
  rcases step_cases h with ⟨h0, -⟩ | ⟨hr, -⟩ | ⟨hr, -⟩ | ⟨hr, -⟩
  · simp [hs] at h0
  all_goals exact hr

theorem Completes.started_eq {s t : State} {i : Instr} (h : Completes s i t) : t.started = s.started := by
  cases h <;> rfl

theorem exec_started {i : Instr} {s t : State} (h : exec i s = .next t) : t.started = s.started := by
  rcases exec_cases h with hc | ⟨f, -, rfl⟩
  · exact hc.started_eq
  · rfl

/-- Run-start sets the bit and nothing clears it. -/
theorem step_started {s t : State} (h : step s = .next t) : t.started = true := by
  rcases step_cases h with ⟨-, rfl⟩ | ⟨⟨hs, -⟩, -, rfl⟩ | ⟨⟨hs, -⟩, -, -, rfl⟩ | ⟨⟨hs, -⟩, -, i, -, hexec⟩
  · rfl
  · exact hs
  · exact hs
  · exact (exec_started hexec).trans hs

/-! ### Runs -/

theorem StepsTo.started {n : Nat} {s t : State} (h : StepsTo n s t) (hs : s.started = true) : t.started = true := by
  induction n generalizing s with
  | zero => exact h ▸ hs
  | succ n ih =>
    obtain ⟨u, hstep, hrest⟩ := h
    exact ih hrest (step_started hstep)

theorem StepsTo.snoc {n : Nat} {s t u : State} (h : StepsTo n s t) (hstep : step t = .next u) : StepsTo (n + 1) s u := by
  induction n generalizing s with
  | zero => exact ⟨u, h ▸ hstep, rfl⟩
  | succ n ih =>
    obtain ⟨v, hfirst, hrest⟩ := h
    exact ⟨v, hfirst, ih hrest⟩

theorem StepsTo.deterministic {n : Nat} {s t u : State} (ht : StepsTo n s t) (hu : StepsTo n s u) : t = u := by
  induction n generalizing s with
  | zero => exact ht.symm.trans hu
  | succ n ih =>
    obtain ⟨v, hv, htrest⟩ := ht
    obtain ⟨w, hw, hurest⟩ := hu
    obtain rfl : v = w := by simpa [hv] using hw
    exact ih htrest hurest

/-- No run is longer than one that has ended. -/
theorem StepsTo.length_le {m n : Nat} {s t u : State} (hs : s.started = true) (ht : StepsTo m s t)
    (hend : t.runState ≠ .running) (hu : StepsTo n s u) : n ≤ m := by
  induction n generalizing m s with
  | zero => exact Nat.zero_le m
  | succ n ih =>
    obtain ⟨w, hw, hurest⟩ := hu
    cases m with
    | zero =>
      obtain ⟨-, hrun⟩ := isRunning_of_step hs hw
      cases ht
      exact absurd ((runState_running _).2 hrun) hend
    | succ m =>
      obtain ⟨v, hv, htrest⟩ := ht
      obtain rfl : v = w := by simpa [hv] using hw
      exact Nat.succ_le_succ (ih (step_started hv) htrest hurest)

/-- The state in which a run has ended is the only one. -/
theorem StepsTo.eq_of_ended {m n : Nat} {s t u : State} (hs : s.started = true) (ht : StepsTo m s t)
    (hu : StepsTo n s u) (htend : t.runState ≠ .running) (huend : u.runState ≠ .running) : t = u := by
  obtain rfl : m = n := le_antisymm (hu.length_le hs huend ht) (ht.length_le hs htend hu)
  exact ht.deterministic hu

/-! ### The three outcomes -/

/-- A run that has not ended is Running, and so has one more state, which has not ended either. -/
theorem neverEnds_of_not_ends {s : State} (hs : s.started = true) (hh : ¬EndsHalted s) (hf : ¬EndsFaulted s) :
    NeverEnds s := by
  have running : ∀ n t, StepsTo n s t → t.runState = .running := by
    intro n t ht
    cases hrun : t.runState with
    | running => rfl
    | halted => exact absurd ⟨n, t, ht, hrun⟩ hh
    | faulted => exact absurd ⟨n, t, ht, hrun⟩ hf
  intro n
  induction n with
  | zero => exact ⟨s, rfl, running 0 s rfl⟩
  | succ n ih =>
    obtain ⟨t, ht, hrun⟩ := ih
    obtain ⟨u, hstep⟩ := step_next_of_running ⟨ht.started hs, (runState_running t).1 hrun⟩
    exact ⟨u, ht.snoc hstep, running (n + 1) u (ht.snoc hstep)⟩

theorem NeverEnds.running {n : Nat} {s t : State} (h : NeverEnds s) (ht : StepsTo n s t) : t.runState = .running := by
  obtain ⟨u, hu, hrun⟩ := h n
  exact ht.deterministic hu ▸ hrun

theorem not_endsHalted_and_endsFaulted {s : State} (hs : s.started = true) : ¬(EndsHalted s ∧ EndsFaulted s) := by
  rintro ⟨⟨m, t, ht, hhalted⟩, n, u, hu, hfaulted⟩
  obtain rfl : t = u := ht.eq_of_ended hs hu (by simp [hhalted]) (by simp [hfaulted])
  simp [hhalted] at hfaulted

/-! ### The loaded state -/

/-- The first listed cell is not 0, so a memory that agrees there lists a cell no higher. -/
theorem Memory.exists_cell_le_head {b : Nat} {w : Byte} {m m' : Memory} (h : Memory.wf ((b, w) :: m))
    (hread : Memory.read ((b, w) :: m) b = m'.read b) : ∃ c ∈ m', c.1 ≤ b := by
  obtain ⟨-, -, hw, -⟩ := Memory.wf_cons.1 h
  by_contra! hlow
  rw [Memory.read_eq_zero hlow] at hread
  exact hw (by simpa [Memory.read] using hread)

theorem Memory.head_le {b b' : Nat} {w w' : Byte} {m m' : Memory} (h : Memory.wf ((b, w) :: m))
    (h' : Memory.wf ((b', w') :: m')) (hread : Memory.read ((b, w) :: m) b = Memory.read ((b', w') :: m') b) :
    b' ≤ b := by
  obtain ⟨e, he, hle⟩ := Memory.exists_cell_le_head h hread
  obtain ⟨hlt', -⟩ := Memory.wf_cons.1 h'
  rcases List.mem_cons.1 he with rfl | he
  · exact hle
  · exact (hlt' e he).le.trans hle

/-- Canonical memories with the same cells are the same list. -/
theorem Memory.eq_of_read {m m' : Memory} (hm : m.wf) (hm' : m'.wf)
    (h : ∀ a, a < 256 → m.read a = m'.read a) : m = m' := by
  induction m generalizing m' with
  | nil =>
    cases m' with
    | nil => rfl
    | cons d m' =>
      obtain ⟨-, hd, -⟩ := Memory.wf_cons.1 hm'
      simpa using Memory.exists_cell_le_head hm' (h d.1 hd).symm
  | cons c m ih =>
    obtain ⟨b, w⟩ := c
    obtain ⟨hlt, hb, -, hwf⟩ := Memory.wf_cons.1 hm
    cases m' with
    | nil => simpa using Memory.exists_cell_le_head hm (h b hb)
    | cons d m' =>
      obtain ⟨b', w'⟩ := d
      obtain ⟨hlt', hb', -, hwf'⟩ := Memory.wf_cons.1 hm'
      obtain rfl : b = b' := le_antisymm (Memory.head_le hm' hm (h b' hb').symm) (Memory.head_le hm hm' (h b hb))
      obtain rfl : w = w' := by simpa [Memory.read] using h b hb
      have htail : ∀ a, a < 256 → Memory.read m a = Memory.read m' a := by
        intro a ha
        by_cases hab : a = b
        · rw [hab, Memory.read_eq_zero hlt, Memory.read_eq_zero hlt']
        · simpa [Memory.read, hab] using h a ha
      rw [ih hwf hwf' htail]

/-- Beside memory the loader only sets `loaded`, so the cells it leaves determine the state. -/
theorem load_eq_of_read {s t u : State} {p q : List Byte} (hs : s.mem.wf) (ht : s.load p = .ok t)
    (hu : s.load q = .ok u) (h : ∀ a, a < 256 → t.mem.read a = u.mem.read a) : t = u := by
  have hmem : t.mem = u.mem := Memory.eq_of_read (load_wf hs ht) (load_wf hs hu) h
  obtain ⟨-, -, -, rfl⟩ := load_cases ht
  obtain ⟨-, -, -, rfl⟩ := load_cases hu
  simp only at hmem
  rw [hmem]

/-- Settles O52: a run that does not end goes on by `neverEnds_of_not_ends`; a run is deterministic and stops where it has
ended, so no two outcomes hold; and canonical memories with the same cells are equal. -/
theorem aRunHasExactlyOneOutcome : Obligations.ARunHasExactlyOneOutcome := by
  refine ⟨fun s hs => ⟨?_, not_endsHalted_and_endsFaulted hs, ?_, ?_⟩, ?_⟩
  · by_cases hh : EndsHalted s
    · exact .inl hh
    · by_cases hf : EndsFaulted s
      · exact .inr (.inl hf)
      · exact .inr (.inr (neverEnds_of_not_ends hs hh hf))
  · rintro ⟨⟨n, t, ht, hhalted⟩, hnever⟩
    simp [hnever.running ht] at hhalted
  · rintro ⟨⟨n, t, ht, hfaulted⟩, hnever⟩
    simp [hnever.running ht] at hfaulted
  · exact fun c p q s t hp hq hread => load_eq_of_read Memory.wf_nil hp hq hread

end Sys2Proof.Machine
end

section
/-! PROOFS. The ALU's results and frames (spec 41_alu.md R131, R132, R135), and `FL` along instructions without a CMP. -/
namespace Sys2Proof.Machine

/-! ### ADD and MUL -/

theorem sameRegsBut_setReg (s : State) (k : Fin 8) (v : Byte) : SameRegsBut [k] s (s.setReg k v) := by
  intro j hj
  exact reg_setReg_ne s (List.ne_of_not_mem_cons hj) v

theorem aluAdd_toNat (va vb : Byte) : (aluAdd va vb).toNat = (va.toNat + vb.toNat) % 256 := BitVec.toNat_add va vb

theorem aluMul_toNat (va vb : Byte) : (aluMul va vb).toNat = (va.toNat * vb.toNat) % 256 := BitVec.toNat_mul va vb

/-- Settles O17: the one register `alu_add` sets holds the wrapped sum, which doubles where both registers are one. -/
theorem aluAddWraps : Obligations.AluAddWraps := by
  intro s a b
  have hsum : ((s.setReg a (aluAdd (s.reg a) (s.reg b))).reg a).toNat = ((s.reg a).toNat + (s.reg b).toNat) % 256 := by
    rw [reg_setReg_same, aluAdd_toNat]
  refine ⟨_, alu_add a b s, hsum, ?_, sameRegsBut_setReg s a _, rfl⟩
  rintro rfl
  rw [hsum, two_mul]

/-- Settles O18: the one register `alu_mul` sets holds the low byte of the product. -/
theorem aluMulKeepsTheLowByte : Obligations.AluMulKeepsTheLowByte := by
  intro s a b
  have hprod : ((s.setReg a (aluMul (s.reg a) (s.reg b))).reg a).toNat = ((s.reg a).toNat * (s.reg b).toNat) % 256 := by
    rw [reg_setReg_same, aluMul_toNat]
  refine ⟨_, alu_mul a b s, hprod, ?_, sameRegsBut_setReg s a _, rfl⟩
  rintro rfl
  exact hprod

/-! ### `FL` between two comparisons -/

theorem Completes.fl_of_not_cmp {s t : State} {i : Instr} (h : Completes s i t) (hi : i.mnemonic ≠ .cmp) :
    t.fl = s.fl := by
  cases h with
  | cmp => exact absurd rfl hi
  | ldi | prn | hlt | mul | add | push | pop | jmp | jeqTaken | jeqNotTaken | jneTaken | jneNotTaken => rfl

/-- A fault leaves `FL` too: it sets the record and nothing else. -/
theorem exec_fl_of_not_cmp {i : Instr} {s t : State} (h : exec i s = .next t) (hi : i.mnemonic ≠ .cmp) :
    t.fl = s.fl := by
  rcases exec_cases h with hc | ⟨f, -, rfl⟩
  · exact hc.fl_of_not_cmp hi
  · exact withFault_fl s f

theorem Executes.fl_of_forall_not_cmp {l : List Instr} {s t : State} (h : Executes l s t)
    (hl : ∀ i ∈ l, i.mnemonic ≠ .cmp) : t.fl = s.fl := by
  induction l generalizing s with
  | nil => exact h ▸ rfl
  | cons i l ih =>
    obtain ⟨u, hexec, hrest⟩ := h
    obtain ⟨hi, hl⟩ := List.forall_mem_cons.1 hl
    exact (ih hrest hl).trans (exec_fl_of_not_cmp hexec hi)

/-- Settles O21: by `alu_cases` the ALU sets one register or, for CMP alone, `FL`; along the list no handler sets `FL`. -/
theorem flagsSurviveUntilTheNextCmp : Obligations.FlagsSurviveUntilTheNextCmp := by
  refine ⟨?_, ?_, fun l s t hl h => h.fl_of_forall_not_cmp hl⟩
  · intro op a b s t hop h
    rcases alu_cases h with ⟨i, v, hi, rfl, -⟩ | ⟨_, _, rfl, -⟩
    · obtain rfl : i = a := Fin.ext hi
      exact ⟨sameRegsBut_setReg s i v, rfl⟩
    · simp at hop
  · intro a b s t h
    cases (alu_cmp a b s).symm.trans h
    rfl

end Sys2Proof.Machine
end

section
/-! PROOFS. The encoding (spec 30_encoding.md sections 1 to 4): decoding and encoding undo each other, and the bytes
outside the table are refused. -/
namespace Sys2Proof

/-! ### Decoding an encoded instruction -/

/-- Each row reads back exactly the operand bytes its instruction writes. -/
theorem decodeOperands_operands (i : Instr) (rest : List Byte) :
    decodeOperands i.mnemonic (i.operands ++ rest) = .ok (i, rest) := by
  cases i <;> rfl

/-- Settles O1: the row is found by `lookup_code`, and it reads its operand bytes back. -/
theorem decodeOfEncode : Obligations.DecodeOfEncode := by
  intro c hc i rest
  have hrow : lookup c (c.opcodes.code i.mnemonic) = some i.mnemonic := lookup_code hc i.mnemonic
  simp only [encode, List.cons_append, decode, hrow, decodeOperands_operands]

/-- Settles O2: the empty list decodes to nothing, and of any other the decoder has consumed the encoding. -/
theorem encodeOfDecode : Obligations.EncodeOfDecode := by
  intro c bytes i rest h
  cases bytes with
  | nil => cases h
  | cons op bytes => exact encode_append_of_decode_cons h

/-! ### Illegal opcode bytes -/

theorem lookup_eq_none_of_not_mem_values {c : Config} {op : Byte} (h : op ∉ c.opcodes.values) : lookup c op = none :=
  lookup_eq_none.2 fun m hm => h (mem_values.2 ⟨m, hm⟩)

theorem decode_of_not_mem_values {c : Config} {op : Byte} (h : op ∉ c.opcodes.values) (rest : List Byte) :
    decode c (op :: rest) = .error (.invalidOpcode op) := by
  simp only [decode, lookup_eq_none_of_not_mem_values h]

/-- The numbers whose byte is in a list without repetitions are, in some order, the values of the list. -/
theorem filter_range_mem_perm {l : List Byte} (hl : l.Nodup) :
    ((List.range 256).filter fun n => decide (BitVec.ofNat 8 n ∈ l)).Perm (l.map BitVec.toNat) := by
  have hmap : (l.map BitVec.toNat).Nodup := hl.map fun _ _ => BitVec.eq_of_toNat_eq
  refine (List.perm_ext_iff_of_nodup (List.nodup_range.filter _) hmap).2 fun n => ?_
  simp only [List.mem_filter, List.mem_range, decide_eq_true_eq, List.mem_map]
  constructor
  · rintro ⟨hn, hmem⟩
    exact ⟨_, hmem, Nat.mod_eq_of_lt hn⟩
  · rintro ⟨v, hv, rfl⟩
    exact ⟨v.isLt, by simpa using hv⟩

/-- The eleven values are distinct, so the other bytes are 245. -/
theorem length_filter_not_mem_values {c : Config} (hc : c.wf) :
    ((List.range 256).filter fun n => decide (BitVec.ofNat 8 n ∉ c.opcodes.values)).length = 245 := by
  obtain ⟨hd, -, -⟩ := hc
  have hin : ((List.range 256).filter fun n => decide (BitVec.ofNat 8 n ∈ c.opcodes.values)).length = 11 := by
    rw [(filter_range_mem_perm hd).length_eq, List.length_map]
    rfl
  have hsplit := List.length_eq_length_filter_add (l := List.range 256)
    fun n => decide (BitVec.ofNat 8 n ∈ c.opcodes.values)
  simp only [hin, List.length_range, ← decide_not] at hsplit
  omega

/-- Settles O3: a byte that is no value is no row's, the count leaves out eleven distinct bytes, and no value is 0. -/
theorem opcodesOutsideTheTableAreIllegal : Obligations.OpcodesOutsideTheTableAreIllegal := by
  intro c hc
  have ⟨_, hne, _⟩ := hc
  have hzero : (0 : Byte) ∉ c.opcodes.values := fun h => hne 0 h rfl
  exact ⟨fun op rest h => decode_of_not_mem_values h rest, length_filter_not_mem_values hc, hzero⟩

/-- Settles O5: seven fixed byte lists, evaluated. -/
theorem defaultWordsDecode : Obligations.DefaultWordsDecode := by
  unfold Obligations.DefaultWordsDecode
  decide

end Sys2Proof
end

section
/-! PROOFS. The invariant (spec 10_state.md sections 3 to 5, 60_exceptions.md R200): it holds at reset, every step keeps
it, and so every state of every run of a loaded program has it. -/
namespace Sys2Proof.Machine

/-! ### What completion leaves unchanged -/

theorem Completes.cfg_eq {s t : State} {i : Instr} (h : Completes s i t) : t.cfg = s.cfg := by
  cases h <;> rfl

theorem Completes.fault_eq {s t : State} {i : Instr} (h : Completes s i t) : t.fault = s.fault := by
  cases h <;> rfl

theorem Completes.halt_of_ne_hlt {s t : State} {i : Instr} (h : Completes s i t) (hi : i ≠ .hlt) : t.halt = s.halt := by
  cases h with
  | hlt => exact absurd rfl hi
  | ldi | prn | mul | add | cmp | push | pop | jmp | jeqTaken | jeqNotTaken | jneTaken | jneNotTaken => rfl

theorem Completes.mem_of_not_push {s t : State} {i : Instr} (h : Completes s i t) (hi : i.mnemonic ≠ .push) :
    t.mem = s.mem := by
  cases h with
  | push => exact absurd rfl hi
  | ldi | prn | hlt | mul | add | cmp | pop | jmp | jeqTaken | jeqNotTaken | jneTaken | jneNotTaken => rfl

/-! ### What completion keeps -/

theorem Completes.mem_wf {s t : State} {i : Instr} (h : Completes s i t) (hs : s.mem.wf) : t.mem.wf := by
  by_cases hi : i.mnemonic = .push
  · cases h with
    | push => exact Memory.write_wf hs (byte_lt_256 _) _
    | _ => cases hi
  · rwa [h.mem_of_not_push hi]

/-- A jump goes to a byte, and every other instruction advances by 3 at most (10_state.md R26). -/
theorem Completes.pc_le {s t : State} {i : Instr} (h : Completes s i t) (hs : s.pc < 256) : t.pc ≤ 258 := by
  have htop : s.pc + 3 ≤ 258 := by omega
  cases h with
  | jmp | jeqTaken | jneTaken => exact (byte_lt_256 _).le.trans (by decide)
  | ldi | prn | hlt | mul | add | cmp | push | pop | jeqNotTaken | jneNotTaken =>
    exact (Nat.add_le_add_left (by decide) s.pc).trans htop

theorem Completes.fl_legal {s t : State} {i : Instr} (h : Completes s i t) (hs : Inv s) :
    t.fl = 0b00000000 ∨ t.fl = 0b00000001 ∨ t.fl = 0b00000010 ∨ t.fl = 0b00000100 := by
  by_cases hi : i.mnemonic = .cmp
  · cases h with
    | cmp => exact .inr (compareFlags_cases _ _)
    | _ => cases hi
  · rw [h.fl_of_not_cmp hi]
    exact hs.fl_legal

theorem Completes.inv {s t : State} {i : Instr} (h : Completes s i t) (hs : Inv s) (hr : IsRunning s)
    (hp : s.pc < 256) : Inv t := by
  obtain ⟨-, hfault, hhalt⟩ := hr
  have hnone : t.fault = none := h.fault_eq.trans hfault
  refine ⟨h.cfg_eq ▸ hs.cfg_wf, h.mem_wf hs.mem_wf, h.pc_le hp, h.fl_legal hs, fun _ => hnone, fun _ ht => ?_, ?_⟩
  · by_cases hi : i = .hlt
    · subst hi
      cases h
      exact ⟨Nat.succ_pos _, hp⟩
    · rw [h.halt_of_ne_hlt hi, hhalt] at ht
      cases ht
  · intro f hf
    rw [hnone] at hf
    cases hf

/-! ### What a fault keeps -/

/-- A handler runs below 256, so a missing operand byte lies at 256 or 257. -/
theorem HandlerFault.legal {s : State} {f : FaultRecord} (h : HandlerFault s f) (hp : s.pc < 256) : f.legal s.pc := by
  cases h with
  | first h | second _ h =>
    simp only [FaultRecord.legal]
    omega
  | @index r _ h =>
    have := byte_lt_256 r
    simp only [FaultRecord.legal]
    omega
  | below => exact .inl rfl
  | above => exact .inr rfl

theorem Inv.withFault {s : State} {f : FaultRecord} (hs : Inv s) (hr : IsRunning s) (hf : f.legal s.pc) :
    Inv (s.withFault f) := by
  obtain ⟨-, -, hhalt⟩ := hr
  have hne : (s.withFault f).halt ≠ true := by simp [hhalt]
  refine ⟨hs.cfg_wf, hs.mem_wf, hs.pc_range, hs.fl_legal, fun h => absurd h hne, fun _ h => absurd h hne, ?_⟩
  intro g hg
  cases hg
  exact hf

theorem Inv.exec {s t : State} {i : Instr} (hs : Inv s) (hr : IsRunning s) (hp : s.pc < 256)
    (h : exec i s = .next t) : Inv t := by
  rcases exec_cases h with hc | ⟨f, hf, rfl⟩
  · exact hc.inv hs hr hp
  · exact hs.withFault hr ((handler_fault hf).legal hp)

/-! ### Steps and runs -/

theorem Inv.runStart {s : State} (hs : Inv s) : Inv s.runStart :=
  ⟨hs.cfg_wf, hs.mem_wf, hs.pc_range, hs.fl_legal, (nomatch ·), fun _ => (nomatch ·), hs.fault_legal⟩

/-- Settles O50: run-start, an illegal fetch, an illegal opcode and a handler each keep the invariant. -/
theorem everyStepKeepsTheInvariant : Obligations.EveryStepKeepsTheInvariant := by
  intro s t hs h
  rcases step_cases h with ⟨-, rfl⟩ | ⟨hr, hp, rfl⟩ | ⟨hr, hp, -, rfl⟩ | ⟨hr, hp, i, -, hexec⟩
  · exact hs.runStart
  · have hrange := hs.pc_range
    refine hs.withFault hr ?_
    simp only [FaultRecord.legal]
    omega
  · exact hs.withFault hr ⟨rfl, Nat.le_of_lt_succ hp⟩
  · exact hs.exec hr hp hexec

/-- What every step keeps holds along every run. -/
theorem StepsTo.preserves {P : State → Prop} (hP : ∀ s t, P s → step s = .next t → P t) {n : Nat} {s t : State}
    (h : StepsTo n s t) (hs : P s) : P t := by
  induction n generalizing s with
  | zero => exact h ▸ hs
  | succ n ih =>
    obtain ⟨u, hstep, hrest⟩ := h
    exact ih hrest (hP s u hs hstep)

theorem inv_reset_of_cfg {c : Config} (hc : c.wf) : Inv { State.reset with cfg := c } :=
  ⟨hc, Memory.wf_nil, Nat.zero_le _, .inl rfl, fun _ => rfl, (nomatch ·), fun _ => (nomatch ·)⟩

theorem Inv.load {s t : State} {prog : List Byte} (hs : Inv s) (h : s.load prog = .ok t) : Inv t := by
  have hwf : t.mem.wf := load_wf hs.mem_wf h
  obtain ⟨-, -, -, rfl⟩ := load_cases h
  exact ⟨hs.cfg_wf, hwf, hs.pc_range, hs.fl_legal, hs.not_both, hs.halt_pc, hs.fault_legal⟩

/-- Settles O49: the default configuration is legal. -/
theorem invariantHoldsAtReset : Obligations.InvariantHoldsAtReset := inv_reset_of_cfg (c := Config.default) (by decide)

/-- Settles O51: the loader and every step keep the invariant that holds at reset under a legal configuration. -/
theorem everyRunOfALoadedProgramKeepsTheInvariant : Obligations.EveryRunOfALoadedProgramKeepsTheInvariant := by
  intro c prog s t n hc hload h
  exact h.preserves everyStepKeepsTheInvariant ((inv_reset_of_cfg hc).load hload)

end Sys2Proof.Machine
end

section
/-! PROOFS. One step (spec 40_dispatch.md): the row of the opcode byte at `pc` decides it, operand bytes past the top of
memory do not matter, and from Halted and Faulted there is none. -/
namespace Sys2Proof.Machine

/-! ### The row decides -/

theorem step_of_lookup {s : State} {m : Mnemonic} (hr : IsRunning s) (hp : s.pc < 256)
    (h : lookup s.cfg (s.mem.read s.pc) = some m) :
    step s = exec (instrOf m (windowByte s 0 1) (windowByte s 0 2)) s := by
  rw [step_of_running hr, fetchInstr_of_lookup hp, h]

theorem step_of_lookup_none {s : State} (hr : IsRunning s) (hp : s.pc < 256)
    (h : lookup s.cfg (s.mem.read s.pc) = none) :
    step s = .next (s.withFault (.invalidOpcode (s.mem.read s.pc) s.pc)) := by
  rw [step_of_running hr, fetchInstr_of_lookup hp, h]
  rfl

theorem step_of_code {s : State} {m : Mnemonic} (hr : IsRunning s) (hc : s.cfg.wf) (hp : s.pc < 256)
    (h : s.mem.read s.pc = s.cfg.opcodes.code m) :
    step s = exec (instrOf m (windowByte s 0 1) (windowByte s 0 2)) s :=
  step_of_lookup hr hp (h ▸ lookup_code hc m)

theorem fetchInstr_of_decode {s : State} {i : Instr} {rest : List Byte} (hp : s.pc < 256)
    (h : decode s.cfg (fetchWindow s) = .ok (i, rest)) : fetchInstr s = .ok i := by
  simp only [fetchInstr, memRead_ok hp, bind_ok, h]

/-- Settles O6: fetching answers what the window decodes to. -/
theorem stepRunsTheDecodedInstruction : Obligations.StepRunsTheDecodedInstruction := by
  intro s i rest hr hp h
  rw [step_of_running hr, fetchInstr_of_decode hp h]

/-- Settles O8: `step_of_lookup` and `step_of_lookup_none`, for a byte in the table and for one outside it. -/
theorem dispatchByTheWholeOpcodeByte : Obligations.DispatchByTheWholeOpcodeByte := by
  intro s hr hp
  refine ⟨fun m h => ⟨code_of_lookup h, _, instrOf_mnemonic m _ _, step_of_lookup hr hp h⟩,
    fun hc m h => h ▸ lookup_code hc m, fun h => ?_⟩
  have ⟨hstarted, _, _⟩ := hr
  exact ⟨_, step_of_lookup_none hr hp (lookup_eq_none.2 h), rfl, rfl, rfl, fun ⟨_, _, hcode⟩ => hcode,
    step_of_fault hstarted rfl⟩

/-! ### Operand bytes past the top -/

theorem fetchOperand_congr {s : State} {k : Nat} {v w : Byte} (h : s.pc + k < 256 → v = w) :
    fetchOperand s k v = fetchOperand s k w := by
  by_cases hp : s.pc + k < 256
  · rw [h hp]
  · rw [fetchOperand_error (by omega), fetchOperand_error (by omega)]

/-- No handler looks at an operand byte whose address is past the top. -/
theorem exec_instrOf_congr {s : State} {b₁ b₂ c₁ c₂ : Byte} (m : Mnemonic) (h₁ : s.pc + 1 < 256 → b₁ = c₁)
    (h₂ : s.pc + 2 < 256 → b₂ = c₂) : exec (instrOf m b₁ b₂) s = exec (instrOf m c₁ c₂) s := by
  have hfirst := fetchOperand_congr h₁
  have hsecond := fetchOperand_congr h₂
  have hreg : fetchReg s b₁ = fetchReg s c₁ := by rw [fetchReg, hfirst, fetchReg]
  have hpair : ∀ pair, aluPair s pair b₁ b₂ = aluPair s pair c₁ c₂ := by
    intro pair
    simp only [aluPair, hfirst, hsecond]
  rw [exec_eq_complete, exec_eq_complete]
  congr 1
  cases m with
  | hlt => rfl
  | ldi => simp only [instrOf, handlerResult, handleLdi, hfirst, hsecond]
  | prn => simp only [instrOf, handlerResult, handlePrn, hreg]
  | push => simp only [instrOf, handlerResult, handlePush, hreg]
  | pop => simp only [instrOf, handlerResult, handlePop, hreg]
  | mul | add | cmp => simp only [instrOf, handlerResult, aluHandler, hpair]
  | jeq => simp only [instrOf, handlerResult, handleJeq, jumpTo, hreg]
  | jne => simp only [instrOf, handlerResult, handleJne, jumpTo, hreg]
  | jmp => simp only [instrOf, handlerResult, jumpTo, hreg]

theorem windowByte_of_lt {s : State} {k : Nat} (h : s.pc + k < 256) (fill : Byte) :
    windowByte s fill k = s.mem.read (s.pc + k) := if_pos h

/-- Settles O7: the window and the given bytes hold one row, and its handler does not see where they differ. -/
theorem operandBytesPastTheTopNeverMatter : Obligations.OperandBytesPastTheTopNeverMatter := by
  intro s b₁ b₂ i rest hr hp h₁ h₂ h
  cases hl : lookup s.cfg (s.mem.read s.pc) with
  | none =>
    rw [decode_window_none hl] at h
    cases h
  | some m =>
    obtain ⟨rest', hd⟩ := decode_window (b₁ := b₁) (b₂ := b₂) hl
    obtain ⟨rfl, -⟩ : instrOf m b₁ b₂ = i ∧ rest' = rest := by simpa [hd] using h
    rw [step_of_lookup hr hp hl]
    exact exec_instrOf_congr m (fun hlt => (windowByte_of_lt hlt 0).trans (h₁ hlt).symm)
      (fun hlt => (windowByte_of_lt hlt 0).trans (h₂ hlt).symm)

/-! ### Where there is no instruction -/

/-- Settles O9: the fetch faults, so nothing is decoded. -/
theorem fetchPastTheTopFaults : Obligations.FetchPastTheTopFaults := by
  intro s hr hp
  rw [step_of_running hr, fetchInstr_past hp]
  rfl

/-- Settles O10: the two stops of `step`. -/
theorem terminalStatesHaveNoStep : Obligations.TerminalStatesHaveNoStep :=
  fun _ hs => ⟨fun _ hf => step_of_fault hs hf, fun hf hh => step_of_halt hs hf hh⟩

/-- Settles O11: every instruction ends in its handler's state or with a fault recorded, and so does a failed fetch. -/
theorem runningMachinesAlwaysStep : Obligations.RunningMachinesAlwaysStep :=
  ⟨exec_next, fun _ hr => step_next_of_running hr⟩

end Sys2Proof.Machine
end

section
/-! PROOFS. Start-up and loading (spec 70_reset_and_hazards.md, 20_memory.md R64), and the end of a run as the host sees
it (60_exceptions.md R213). -/
namespace Sys2Proof.Machine

/-! ### Construction and run-start -/

theorem reset_reg (k : Fin 8) : State.reset.reg k = 0 := Vector.getElem_replicate k.isLt

/-- Settles O12: the fields of the reset state. -/
theorem constructionValues : Obligations.ConstructionValues :=
  ⟨fun _ => rfl, reset_reg, rfl, rfl, rfl, rfl, rfl, rfl, rfl⟩

theorem reg_runStart (s : State) (k : Fin 8) : s.runStart.reg k = if k = 7 then spInit else s.reg k :=
  reg_setReg s 7 k spInit

theorem load_reset_reg {s : State} {prog : List Byte} (h : State.reset.load prog = .ok s) (k : Fin 8) : s.reg k = 0 := by
  obtain ⟨-, -, -, rfl⟩ := load_cases h
  exact reset_reg k

/-- Settles O14: run-start sets register 7 and `halt`, and the loader has left the registers at 0. -/
theorem runStartSetsTheStackPointer : Obligations.RunStartSetsTheStackPointer := by
  refine ⟨fun s h => ?_, fun prog s hload => ?_⟩
  · exact ⟨_, step_of_not_started h, rfl, reg_runStart s 7, rfl, sameRegsBut_setReg s 7 spInit, fun _ => rfl,
      rfl, rfl, rfl, rfl, rfl, rfl⟩
  · have hstarted : s.started = false := by
      obtain ⟨-, -, -, rfl⟩ := load_cases hload
      rfl
    refine ⟨_, step_of_not_started hstarted, reg_runStart s 7, fun k hk => ?_⟩
    rw [reg_runStart, if_neg hk, load_reset_reg hload]

/-! ### The loader -/

theorem load_of_length_le {s : State} {prog : List Byte} (h1 : s.started = false) (h2 : s.loaded = false)
    (h : prog.length ≤ 256) : s.load prog = .ok { s with mem := s.mem.store 0 prog, loaded := true } := by
  simp [State.load, h1, h2, h]

theorem load_of_length_gt {s : State} {prog : List Byte} (h1 : s.started = false) (h2 : s.loaded = false)
    (h : 256 < prog.length) : s.load prog = .error .tooLong := by
  simp [State.load, h1, h2, h]

/-- Settles O13: a short program's cells are those of `read_load_reset`; a long one, and any after run-start, is refused. -/
theorem loaderFillsMemoryFromZero : Obligations.LoaderFillsMemoryFromZero := by
  refine fun prog => ⟨fun h => ?_, load_of_length_gt rfl rfl, fun s hs => load_of_started hs prog⟩
  have hload := load_of_length_le (s := State.reset) rfl rfl h
  exact ⟨_, hload, fun a ha => read_load_reset hload ha, load_wf reset_mem_wf hload, rfl⟩

theorem Completes.loaded_eq {s t : State} {i : Instr} (h : Completes s i t) : t.loaded = s.loaded := by
  cases h <;> rfl

theorem step_loaded {s t : State} (h : step s = .next t) : t.loaded = s.loaded := by
  rcases step_cases h with ⟨-, rfl⟩ | ⟨-, -, rfl⟩ | ⟨-, -, -, rfl⟩ | ⟨-, -, i, -, hexec⟩
  · exact runStart_loaded s
  · exact withFault_loaded s _
  · exact withFault_loaded s _
  · rcases exec_cases hexec with hc | ⟨f, -, rfl⟩
    · exact hc.loaded_eq
    · exact withFault_loaded s f

/-- Settles O55: a load sets `loaded`, which every step keeps, and the first step is past run-start. -/
theorem oneProgramIsLoaded : Obligations.OneProgramIsLoaded := by
  intro s t prog hload
  obtain ⟨hstarted, hloaded, -, rfl⟩ := load_cases hload
  refine ⟨hstarted, hloaded, load_of_loaded hstarted rfl, fun n u h => ⟨?_, fun hn again => ?_⟩⟩
  · exact h.preserves (P := fun v => v.loaded = true) (fun v w hv hstep => (step_loaded hstep).trans hv) rfl
  · cases n with
    | zero => exact absurd rfl hn
    | succ n =>
      obtain ⟨v, hstep, hrest⟩ := h
      exact load_of_started (hrest.started (step_started hstep)) again

/-! ### The configuration -/

theorem step_cfg {s t : State} (h : step s = .next t) : t.cfg = s.cfg := by
  rcases step_cases h with ⟨-, rfl⟩ | ⟨-, -, rfl⟩ | ⟨-, -, -, rfl⟩ | ⟨-, -, i, -, hexec⟩
  · exact runStart_cfg s
  · exact withFault_cfg s _
  · exact withFault_cfg s _
  · rcases exec_cases hexec with hc | ⟨f, -, rfl⟩
    · exact hc.cfg_eq
    · exact withFault_cfg s f

/-- Settles O45: neither the loader nor a step changes the configuration. -/
theorem configurationNeverChanges : Obligations.ConfigurationNeverChanges := by
  refine ⟨fun s t prog h => ?_, fun n s t h => ?_⟩
  · obtain ⟨-, -, -, rfl⟩ := load_cases h
    rfl
  · exact h.preserves (P := fun v => v.cfg = s.cfg) (fun v w hv hstep => (step_cfg hstep).trans hv) rfl

/-! ### The end of a run -/

/-- Settles O53: a state with a fault record is Faulted, and no run reaches both Halted and Faulted. -/
theorem haltedRunsAreSafe : Obligations.HaltedRunsAreSafe := by
  intro s hs hhalted n t ht
  by_contra hne
  obtain ⟨f, hf⟩ := Option.ne_none_iff_exists'.1 hne
  exact not_endsHalted_and_endsFaulted hs ⟨hhalted, n, t, ht, (runState_faulted t).2 ⟨f, hf⟩⟩

/-- Settles O54: a legal configuration's failure code is not 0. -/
theorem exitIndicationFollowsTheRunState : Obligations.ExitIndicationFollowsTheRunState := by
  rintro s ⟨-, -, hcode⟩
  refine ⟨fun h => ?_, fun h => ?_, fun h => ⟨_, hcode, ?_⟩⟩ <;> simp only [State.exitIndication, h]

end Sys2Proof.Machine
end

section
/-! PROOFS. The components (spec 10_state.md R23, 41_alu.md R133, R134): the Register File's interface, the ALU's
comparison, and the tag no instruction passes. -/
namespace Sys2Proof.Machine

/-- Settles O16: the index check lets a register's own index through and no other. -/
theorem registerFileInterface : Obligations.RegisterFileInterface := by
  refine ⟨fun s k v => ⟨?_, s.setReg k v, ?_, reg_setReg_same s k v, sameRegsBut_setReg s k v, rfl⟩,
    fun s i v hi => ⟨?_, ?_⟩⟩
  · simp only [regGet, regIndex_val, bind_ok]
  · simp only [regSet, regIndex_val, bind_ok]
  · simp only [regGet, regIndex_error hi, bind_error]
  · simp only [regSet, regIndex_error hi, bind_error]

theorem compareFlags_of_eq {va vb : Byte} (h : va.toNat = vb.toNat) : compareFlags va vb = flEqual :=
  if_pos (BitVec.eq_of_toNat_eq h)

theorem compareFlags_of_gt {va vb : Byte} (h : vb.toNat < va.toNat) : compareFlags va vb = flGreater := by
  have hne : va ≠ vb := by
    rintro rfl
    exact lt_irrefl _ h
  rw [compareFlags, if_neg hne, if_pos h]

theorem compareFlags_of_lt {va vb : Byte} (h : va.toNat < vb.toNat) : compareFlags va vb = flLess := by
  have hne : va ≠ vb := by
    rintro rfl
    exact lt_irrefl _ h
  rw [compareFlags, if_neg hne, if_neg h.not_gt]

/-- Settles O19: the flags are those of `compareFlags`, one value for each of the three orders. -/
theorem aluCompareSetsOneFlag : Obligations.AluCompareSetsOneFlag :=
  fun s a b => ⟨_, alu_cmp a b s, compareFlags_of_eq, compareFlags_of_gt, compareFlags_of_lt, rfl⟩

theorem alu_other (tag : Nat) (i j : Fin 8) (s : State) :
    alu (.other tag) i.val j.val s = .error (.unsupportedOperation tag) := by
  simp only [alu, regIndex_val, bind_ok]

theorem HandlerFault.ne_unsupportedOperation {s : State} {f : FaultRecord} (h : HandlerFault s f) (tag : Nat) :
    f ≠ .unsupportedOperation tag := by
  cases h <;> exact FaultRecord.noConfusion

/-- Settles O20: no fault a fetch or a handler raises is that record, so a step that shows it has found it there. -/
theorem unsupportedOperationIsUnreachable : Obligations.UnsupportedOperationIsUnreachable := by
  refine ⟨fun s tag a b => alu_other tag a b s, fun s t tag h ht => ?_⟩
  rcases step_cases h with ⟨-, rfl⟩ | ⟨-, -, rfl⟩ | ⟨-, -, -, rfl⟩ | ⟨-, -, i, -, hexec⟩
  · rfl
  · cases ht
  · cases ht
  · rcases exec_cases hexec with hc | ⟨f, hf, rfl⟩
    · exact hc.fault_eq
    · exact absurd (Option.some.inj ht) ((handler_fault hf).ne_unsupportedOperation tag)

end Sys2Proof.Machine
end

section
/-! PROOFS. What each instruction does when it completes (spec 42_data_movement.md to 45_control_flow.md): its result and
its frame, read off `Completes`. -/
namespace Sys2Proof.Machine

/-! ### Frames -/

theorem Completes.sameMem {s t : State} {i : Instr} (h : Completes s i t) (hi : i.mnemonic ≠ .push) : SameMem s t := by
  intro a
  rw [h.mem_of_not_push hi]

theorem Completes.sameControl {s t : State} {i : Instr} (h : Completes s i t) (hi : i ≠ .hlt) : SameControl s t :=
  ⟨h.cfg_eq, h.started_eq, h.loaded_eq, h.halt_of_ne_hlt hi, h.fault_eq⟩

theorem Completes.out_of_not_prn {s t : State} {i : Instr} (h : Completes s i t) (hi : i.mnemonic ≠ .prn) :
    t.out = s.out := by
  cases h with
  | prn => exact absurd rfl hi
  | ldi | hlt | mul | add | cmp | push | pop | jmp | jeqTaken | jeqNotTaken | jneTaken | jneNotTaken => rfl

/-! ### Data movement -/

/-- Settles O22: LDI with both operand bytes at hand and a legal index completes. -/
theorem ldiLoadsTheImmediate : Obligations.LdiLoadsTheImmediate := by
  intro s r imm k hk hp
  have h : Completes s (.ldi r imm) ((s.setReg k imm).advance 3) := .ldi hk hp
  exact ⟨_, exec_of_completes h, reg_setReg_same s k imm, rfl, sameRegsBut_setReg s k imm,
    h.sameMem nofun, h.sameControl nofun, rfl, rfl⟩

/-- Settles O23: PRN with its operand byte at hand and a legal index completes. -/
theorem prnEmitsTheRegister : Obligations.PrnEmitsTheRegister := by
  intro s r k hk hp
  have h : Completes s (.prn r) ((s.emit (s.reg k)).advance 2) := .prn hk hp
  exact ⟨_, exec_of_completes h, rfl, rfl, fun _ _ => rfl, h.sameMem nofun, h.sameControl nofun, rfl⟩

/-! ### Arithmetic and comparison -/

/-- What MUL and ADD share: one register set, `pc` advanced by 3, and the rest as before. -/
theorem exec_of_completes_setReg {s : State} {i : Instr} {k : Fin 8} {v : Byte}
    (h : Completes s i ((s.setReg k v).advance 3)) (hpush : i.mnemonic ≠ .push) (hhlt : i ≠ .hlt) :
    ∃ t, exec i s = .next t ∧ (t.reg k).toNat = v.toNat ∧ t.pc = s.pc + 3 ∧ SameRegsBut [k] s t ∧ SameMem s t ∧
      SameControl s t ∧ t.fl = s.fl ∧ t.out = s.out :=
  ⟨_, exec_of_completes h, congrArg _ (reg_setReg_same s k v), rfl, sameRegsBut_setReg s k v, h.sameMem hpush,
    h.sameControl hhlt, rfl, rfl⟩

theorem exec_mul_of_pairIs {s : State} {a b : Byte} {i j : Fin 8} (h : PairIs s (0, 1) a b i j) :
    ∃ t, exec (.mul a b) s = .next t ∧ (t.reg i).toNat = ((s.reg i).toNat * (s.reg j).toNat) % 256 ∧ t.pc = s.pc + 3 ∧
      SameRegsBut [i] s t ∧ SameMem s t ∧ SameControl s t ∧ t.fl = s.fl ∧ t.out = s.out := by
  rw [← aluMul_toNat]
  exact exec_of_completes_setReg (.mul h) nofun nofun

theorem exec_add_of_pairIs {s : State} {a b : Byte} {i j : Fin 8} (h : PairIs s (0, 0) a b i j) :
    ∃ t, exec (.add a b) s = .next t ∧ (t.reg i).toNat = ((s.reg i).toNat + (s.reg j).toNat) % 256 ∧ t.pc = s.pc + 3 ∧
      SameRegsBut [i] s t ∧ SameMem s t ∧ SameControl s t ∧ t.fl = s.fl ∧ t.out = s.out := by
  rw [← aluAdd_toNat]
  exact exec_of_completes_setReg (.add h) nofun nofun

/-- Settles O25: in `fixed` mode the pair is the handler's own, whatever the operand bytes and `pc`. -/
theorem mulAndAddOnFixedRegisters : Obligations.MulAndAddOnFixedRegisters :=
  fun _ _ _ h => ⟨exec_mul_of_pairIs (.inl ⟨h, rfl, rfl⟩), exec_add_of_pairIs (.inl ⟨h, rfl, rfl⟩)⟩

/-- Settles O26: in `decoded` mode the pair is the one the operand bytes name. -/
theorem mulAndAddOnDecodedRegisters : Obligations.MulAndAddOnDecodedRegisters :=
  fun _ _ _ _ _ h ha hb hp => ⟨exec_mul_of_pairIs (.inr ⟨h, hp, ha, hb⟩), exec_add_of_pairIs (.inr ⟨h, hp, ha, hb⟩)⟩

/-- Settles O27: CMP completes on the pair of its mode, and `compareFlags` gives one value for each order. -/
theorem cmpComparesUnsigned : Obligations.CmpComparesUnsigned := by
  intro s a b i j hmode
  have hpair : PairIs s (0, 1) a b i j := by
    rcases hmode with ⟨h, rfl, rfl⟩ | ⟨h, ha, hb, hp⟩
    · exact .inl ⟨h, rfl, rfl⟩
    · exact .inr ⟨h, hp, ha, hb⟩
  have h : Completes s (.cmp a b) _ := .cmp hpair
  exact ⟨_, exec_of_completes h, rfl, compareFlags_of_eq, compareFlags_of_gt, compareFlags_of_lt, fun _ _ => rfl,
    h.sameMem nofun, h.sameControl nofun, rfl⟩

/-! ### The stack -/

theorem toNat_sub_one {v : Byte} (h : v ≠ 0) : (v - 1).toNat = v.toNat - 1 := by
  have hpos : v.toNat ≠ 0 := fun h0 => h (BitVec.eq_of_toNat_eq h0)
  bv_omega

theorem toNat_add_one {v : Byte} (h : v ≠ 255) : (v + 1).toNat = v.toNat + 1 := by
  have htop : v.toNat ≠ 255 := fun h0 => h (BitVec.eq_of_toNat_eq h0)
  have := byte_lt_256 v
  bv_omega

theorem pushed_reg (s : State) (k j : Fin 8) : (pushed s k).reg j = if j = 7 then s.reg 7 - 1 else s.reg j :=
  reg_setReg s 7 j (s.reg 7 - 1)

theorem sameRegsBut_pushed (s : State) (k : Fin 8) : SameRegsBut [7] s (pushed s k) := by
  intro j hj
  rw [pushed_reg, if_neg (List.ne_of_not_mem_cons hj)]

theorem read_pushed {s : State} (hs : s.mem.wf) (h0 : s.reg 7 ≠ 0) (k : Fin 8) (a : Nat) :
    (pushed s k).mem.read a =
      if a = (s.reg 7).toNat - 1 then (if k = 7 then s.reg 7 - 1 else s.reg k) else s.mem.read a := by
  rw [← toNat_sub_one h0, ← reg_setReg s 7 k]
  exact Memory.read_write hs _ a _

/-- Settles O28: PUSH with a stack pointer above 0 completes; `read_pushed` gives every cell. -/
theorem pushStoresAtTheNewStackPointer : Obligations.PushStoresAtTheNewStackPointer := by
  intro s r k hk hp h0 hs
  have h : Completes s (.push r) (pushed s k) := .push hk hp h0
  refine ⟨_, exec_of_completes h, ?_, ?_, fun a ha => ?_, rfl, sameRegsBut_pushed s k, h.sameControl nofun, rfl, rfl⟩
  · rw [pushed_reg, if_pos rfl, toNat_sub_one h0]
  · rw [read_pushed hs h0, if_pos rfl]
  · rw [read_pushed hs h0, if_neg ha]

theorem afterPopLoad_reg (s : State) (k j : Fin 8) :
    (afterPopLoad s k).reg j = if j = k then s.mem.read (s.reg 7).toNat else s.reg j :=
  reg_setReg s k j _

theorem popped_reg_sp (s : State) (k : Fin 8) : (popped s k).reg 7 = (afterPopLoad s k).reg 7 + 1 :=
  reg_setReg_same (afterPopLoad s k) 7 _

theorem popped_reg_of_ne_sp (s : State) (k : Fin 8) {j : Fin 8} (hj : j ≠ 7) :
    (popped s k).reg j = (afterPopLoad s k).reg j := reg_setReg_ne (afterPopLoad s k) hj _

theorem sameRegsBut_popped (s : State) (k : Fin 8) : SameRegsBut [k, 7] s (popped s k) := by
  intro j hj
  simp only [List.mem_cons, List.not_mem_nil, or_false, not_or] at hj
  obtain ⟨hjk, hj7⟩ := hj
  rw [popped_reg_of_ne_sp s k hj7, afterPopLoad_reg, if_neg hjk]

/-- Settles O29: POP completes where the stack pointer it increments, the loaded one for R7, is not 255. -/
theorem popLoadsFromTheOldStackPointer : Obligations.PopLoadsFromTheOldStackPointer := by
  intro s r k hk hp hother hsp
  have htop : (afterPopLoad s k).reg 7 ≠ 255 := by
    rw [afterPopLoad_reg]
    split
    · exact hsp (Eq.symm ‹_›)
    · exact hother (Ne.symm ‹_›)
  have h : Completes s (.pop r) (popped s k) := .pop hk hp htop
  have hinc : ((popped s k).reg 7).toNat = ((afterPopLoad s k).reg 7).toNat + 1 := by
    rw [popped_reg_sp, toNat_add_one htop]
  refine ⟨_, exec_of_completes h, fun hne => ⟨?_, ?_⟩, ?_, rfl, sameRegsBut_popped s k, h.sameMem nofun,
    h.sameControl nofun, rfl, rfl⟩
  · rw [popped_reg_of_ne_sp s k hne, afterPopLoad_reg, if_pos rfl]
  · rw [hinc, afterPopLoad_reg, if_neg hne.symm]
  · rintro rfl
    rw [hinc, afterPopLoad_reg, if_pos rfl]

/-! ### Control flow -/

/-- What the jumps share: only `pc` is set. -/
theorem exec_of_completes_withPc {s : State} {i : Instr} {a : Nat} (h : Completes s i (s.withPc a)) :
    ∃ t, exec i s = .next t ∧ t.pc = a ∧ SameRegsBut [] s t ∧ SameMem s t ∧ SameControl s t ∧ t.fl = s.fl ∧
      t.out = s.out :=
  ⟨_, exec_of_completes h, rfl, fun _ _ => rfl, fun _ => rfl, ⟨rfl, rfl, rfl, rfl, rfl⟩, rfl, rfl⟩

/-- Settles O30: JMP with its operand byte at hand and a legal index completes. -/
theorem jmpAlwaysJumps : Obligations.JmpAlwaysJumps :=
  fun _ _ _ hk hp => exec_of_completes_withPc (.jmp hk hp)

/-- Settles O31: the two ways JEQ completes. -/
theorem jeqJumpsIffEqual : Obligations.JeqJumpsIffEqual :=
  ⟨fun _ _ _ hfl hk hp => exec_of_completes_withPc (.jeqTaken hfl hk hp),
    fun _ _ hfl => exec_of_completes_withPc (.jeqNotTaken hfl)⟩

/-- Settles O32: the two ways JNE completes. -/
theorem jneJumpsIffNotEqual : Obligations.JneJumpsIffNotEqual :=
  ⟨fun _ _ _ hfl hk hp => exec_of_completes_withPc (.jneTaken hfl hk hp),
    fun _ _ hfl => exec_of_completes_withPc (.jneNotTaken hfl)⟩

theorem handleJeq_of_equal {s : State} (h : equalBit s.fl = true) (r : Byte) : handleJeq r s = jumpTo r s := if_pos h

theorem handleJne_of_not_equal {s : State} (h : equalBit s.fl = false) (r : Byte) : handleJne r s = jumpTo r s :=
  if_neg (Bool.eq_false_iff.1 h)

/-- Settles O33: a taken jump is JMP's handler, faults included, and one not taken completes. -/
theorem jeqAndJneAreComplements : Obligations.JeqAndJneAreComplements := by
  refine fun s r => ⟨fun h => ⟨?_, exec_of_completes (.jneNotTaken h)⟩, fun h => ⟨?_, exec_of_completes (.jeqNotTaken h)⟩⟩
  · exact congrArg (complete s) (handleJeq_of_equal h r)
  · exact congrArg (complete s) (handleJne_of_not_equal h r)

/-- Settles O24: HLT has no operand, completes everywhere, and leaves a Running machine Halted. -/
theorem hltHaltsTheRun : Obligations.HltHaltsTheRun := by
  have hexec : ∀ s : State, exec .hlt s = .next (s.setHalt.advance 1) := fun _ => exec_of_completes .hlt
  refine ⟨fun _ => rfl, fun s => ?_, fun s hr hc hp hop => ?_⟩
  · exact ⟨_, hexec s, rfl, rfl, fun _ _ => rfl, fun _ => rfl, rfl, rfl, rfl, rfl, rfl, rfl⟩
  · have ⟨hstarted, hfault, _⟩ := hr
    have hstep : step s = exec .hlt s := step_of_code (m := .hlt) hr hc hp hop
    have hhalted : (s.setHalt.advance 1).runState = .halted := (runState_halted _).2 ⟨hfault, rfl⟩
    refine ⟨_, hstep.trans (hexec s), hexec s, hhalted, ?_, step_of_halt hstarted hfault rfl⟩
    simp only [State.exitIndication, hhalted]

end Sys2Proof.Machine
end

section
/-! PROOFS. Where an instruction faults (spec 60_exceptions.md R202 to R209): `Faults s i f` lists every fault of
instruction `i` begun in `s`, in the order of the checks, and then nothing but the record changes. -/
namespace Sys2Proof.Machine

/-! ### The operand phase of each handler -/

/-- The handler begins with the register its one operand byte `r` names (a jump does only where it is taken). -/
inductive OneRegister (fl r : Byte) : Instr → Prop
  | prn : OneRegister fl r (.prn r)
  | push : OneRegister fl r (.push r)
  | pop : OneRegister fl r (.pop r)
  | jmp : OneRegister fl r (.jmp r)
  | jeq : equalBit fl = true → OneRegister fl r (.jeq r)
  | jne : equalBit fl = false → OneRegister fl r (.jne r)

/-- The handler is the ALU's, with this operation and these two registers in `fixed` mode. -/
inductive OnAlu (a b : Byte) : AluOp → Nat × Nat → Instr → Prop
  | mul : OnAlu a b .mul (0, 1) (.mul a b)
  | add : OnAlu a b .add (0, 0) (.add a b)
  | cmp : OnAlu a b .cmp (0, 1) (.cmp a b)

theorem OneRegister.handlerResult_eq {s : State} {r : Byte} {i : Instr} (h : OneRegister s.fl r i) :
    ∃ g, handlerResult i s = fetchReg s r >>= g := by
  cases h with
  | prn | push | pop | jmp => exact ⟨_, rfl⟩
  | jeq hfl => exact ⟨_, handleJeq_of_equal hfl r⟩
  | jne hfl => exact ⟨_, handleJne_of_not_equal hfl r⟩

theorem OnAlu.handlerResult_eq {a b : Byte} {op : AluOp} {pair : Nat × Nat} {i : Instr} (h : OnAlu a b op pair i)
    (s : State) : handlerResult i s = aluHandler op pair a b s := by
  cases h <;> rfl

/-- In `decoded` mode both operand bytes are fetched, then the indices are checked, the first before the second
(43_arithmetic_compare.md R153). -/
theorem aluPair_eq_error {s : State} (h : s.cfg.aluOperands = .decoded) {pair : Nat × Nat} {a b : Byte}
    {f : FaultRecord} :
    aluPair s pair a b = .error f ↔
      (256 ≤ s.pc + 1 ∧ f = .boundsFault .memAddress (s.pc + 1 : Nat)) ∨
      (s.pc + 1 < 256 ∧ 256 ≤ s.pc + 2 ∧ f = .boundsFault .memAddress (s.pc + 2 : Nat)) ∨
      (s.pc + 2 < 256 ∧ 8 ≤ a.toNat ∧ f = .boundsFault .regIndex a.toNat) ∨
      (s.pc + 2 < 256 ∧ a.toNat < 8 ∧ 8 ≤ b.toNat ∧ f = .boundsFault .regIndex b.toNat) := by
  simp only [aluPair, h, bind_eq_error, fetchOperand_eq_error, fetchOperand_eq_ok, regIndex_eq_error, regIndex_eq_ok,
    reduceCtorEq, and_false, exists_false, or_false]
  constructor
  · rintro (⟨hp, rfl⟩ | ⟨_, ⟨h1, rfl⟩, ⟨hp, rfl⟩ | ⟨_, ⟨h2, rfl⟩, ⟨ha, rfl⟩ | ⟨k, hk, hb, rfl⟩⟩⟩)
    · exact .inl ⟨hp, rfl⟩
    · exact .inr (.inl ⟨h1, hp, rfl⟩)
    · exact .inr (.inr (.inl ⟨h2, ha, rfl⟩))
    · exact .inr (.inr (.inr ⟨h2, hk ▸ k.isLt, hb, rfl⟩))
  · rintro (⟨hp, rfl⟩ | ⟨h1, hp, rfl⟩ | ⟨h2, ha, rfl⟩ | ⟨h2, ha, hb, rfl⟩)
    · exact .inl ⟨hp, rfl⟩
    · exact .inr ⟨_, ⟨h1, rfl⟩, .inl ⟨hp, rfl⟩⟩
    · exact .inr ⟨_, ⟨by omega, rfl⟩, .inr ⟨_, ⟨h2, rfl⟩, .inl ⟨ha, rfl⟩⟩⟩
    · exact .inr ⟨_, ⟨by omega, rfl⟩, .inr ⟨_, ⟨h2, rfl⟩, .inr ⟨⟨_, ha⟩, rfl, hb, rfl⟩⟩⟩

/-- The pair names two registers, so the ALU itself raises nothing. -/
theorem OnAlu.aluHandler_eq_error {a b : Byte} {op : AluOp} {pair : Nat × Nat} {i : Instr} (h : OnAlu a b op pair i)
    {s : State} {f : FaultRecord} (hf : aluHandler op pair a b s = .error f) : aluPair s pair a b = .error f := by
  have hpair : ∀ p, aluPair s pair a b = .ok p → ∃ j k : Fin 8, p = (j.val, k.val) := by
    intro p hp
    unfold aluPair at hp
    split at hp
    · cases hp
      cases h with
      | mul | cmp => exact ⟨0, 1, rfl⟩
      | add => exact ⟨0, 0, rfl⟩
    · simp only [bind_eq_ok, Except.ok.injEq] at hp
      obtain ⟨_, -, _, -, j, -, k, -, rfl⟩ := hp
      exact ⟨j, k, rfl⟩
  cases hp : aluPair s pair a b with
  | error e => simpa [aluHandler, hp] using hf
  | ok p =>
    obtain ⟨j, k, rfl⟩ := hpair p hp
    cases h <;> simp [aluHandler, hp] at hf

theorem handleLdi_eq_error {r imm : Byte} {s : State} {f : FaultRecord} :
    handleLdi r imm s = .error f ↔
      (256 ≤ s.pc + 1 ∧ f = .boundsFault .memAddress (s.pc + 1 : Nat)) ∨
      (s.pc + 1 < 256 ∧ 256 ≤ s.pc + 2 ∧ f = .boundsFault .memAddress (s.pc + 2 : Nat)) ∨
      (s.pc + 2 < 256 ∧ 8 ≤ r.toNat ∧ f = .boundsFault .regIndex r.toNat) := by
  simp only [handleLdi, bind_eq_error, fetchOperand_eq_error, fetchOperand_eq_ok, regIndex_eq_error, reduceCtorEq,
    and_false, exists_false, or_false]
  constructor
  · rintro (⟨hp, rfl⟩ | ⟨_, ⟨h1, rfl⟩, ⟨hp, rfl⟩ | ⟨_, ⟨h2, rfl⟩, hr, rfl⟩⟩)
    · exact .inl ⟨hp, rfl⟩
    · exact .inr (.inl ⟨h1, hp, rfl⟩)
    · exact .inr (.inr ⟨h2, hr, rfl⟩)
  · rintro (⟨hp, rfl⟩ | ⟨h1, hp, rfl⟩ | ⟨h2, hr, rfl⟩)
    · exact .inl ⟨hp, rfl⟩
    · exact .inr ⟨_, ⟨h1, rfl⟩, .inl ⟨hp, rfl⟩⟩
    · exact .inr ⟨_, ⟨by omega, rfl⟩, .inr ⟨_, ⟨h2, rfl⟩, hr, rfl⟩⟩

/-! ### Every fault of an instruction -/

/-- Every way an instruction faults: in its operand phase, or at an end of the stack pointer's range. -/
inductive Faults (s : State) : Instr → FaultRecord → Prop
  | oneRegister {r : Byte} {i : Instr} {f : FaultRecord} : OneRegister s.fl r i → fetchReg s r = .error f → Faults s i f
  | ldi {r imm : Byte} {f : FaultRecord} : handleLdi r imm s = .error f → Faults s (.ldi r imm) f
  | onAlu {a b : Byte} {op : AluOp} {pair : Nat × Nat} {i : Instr} {f : FaultRecord} : OnAlu a b op pair i →
      aluPair s pair a b = .error f → Faults s i f
  | below {r : Byte} {k : Fin 8} : r.toNat = k.val → s.pc + 1 < 256 → s.reg 7 = 0 →
      Faults s (.push r) (.boundsFault .spRange (-1))
  | above {r : Byte} {k : Fin 8} : r.toNat = k.val → s.pc + 1 < 256 → (afterPopLoad s k).reg 7 = 255 →
      Faults s (.pop r) (.boundsFault .spRange 256)

theorem spDecrement_eq_error_iff {sp : Byte} {f : FaultRecord} :
    spDecrement sp = .error f ↔ sp = 0 ∧ f = .boundsFault .spRange (-1) := by
  unfold spDecrement
  split
  next h => simp [h, eq_comm]
  next h => simp only [reduceCtorEq, h, false_and]

theorem spIncrement_eq_error_iff {sp : Byte} {f : FaultRecord} :
    spIncrement sp = .error f ↔ sp = 255 ∧ f = .boundsFault .spRange 256 := by
  unfold spIncrement
  split
  next h => simp [h, eq_comm]
  next h => simp only [reduceCtorEq, h, false_and]

theorem handlePush_eq_error {r : Byte} {s : State} {f : FaultRecord} :
    handlePush r s = .error f ↔ fetchReg s r = .error f ∨
      ∃ k : Fin 8, r.toNat = k.val ∧ s.pc + 1 < 256 ∧ s.reg 7 = 0 ∧ f = .boundsFault .spRange (-1) := by
  simp only [handlePush, bind_eq_error, memWrite_ok (byte_lt_256 _), fetchReg_eq_ok, spDecrement_eq_error_iff,
    reduceCtorEq, and_false, exists_false, or_false]
  refine or_congr_right (exists_congr fun k => ?_)
  tauto

theorem handlePop_eq_error {r : Byte} {s : State} {f : FaultRecord} :
    handlePop r s = .error f ↔ fetchReg s r = .error f ∨
      ∃ k : Fin 8, r.toNat = k.val ∧ s.pc + 1 < 256 ∧ (afterPopLoad s k).reg 7 = 255 ∧ f = .boundsFault .spRange 256 := by
  simp only [handlePop, bind_eq_error, memRead_ok (byte_lt_256 _), fetchReg_eq_ok, spIncrement_eq_error_iff,
    Except.ok.injEq, exists_eq_left', reduceCtorEq, and_false, exists_false, or_false, false_or]
  refine or_congr_right (exists_congr fun k => ?_)
  simp only [afterPopLoad]
  tauto

theorem jumpTo_eq_error {r : Byte} {s : State} {f : FaultRecord} (h : jumpTo r s = .error f) :
    fetchReg s r = .error f := by
  simpa only [jumpTo, bind_eq_error, reduceCtorEq, and_false, exists_false, or_false] using h

/-- A handler raises exactly the faults listed. -/
theorem handlerResult_eq_error {i : Instr} {s : State} {f : FaultRecord} :
    handlerResult i s = .error f ↔ Faults s i f := by
  constructor
  · intro h
    cases i with
    | ldi r imm => exact .ldi h
    | prn r =>
      refine .oneRegister .prn ?_
      simpa only [handlerResult, handlePrn, bind_eq_error, reduceCtorEq, and_false, exists_false, or_false] using h
    | hlt => cases h
    | mul a b => exact .onAlu .mul (OnAlu.mul.aluHandler_eq_error h)
    | add a b => exact .onAlu .add (OnAlu.add.aluHandler_eq_error h)
    | cmp a b => exact .onAlu .cmp (OnAlu.cmp.aluHandler_eq_error h)
    | push r =>
      rcases handlePush_eq_error.1 h with hf | ⟨k, hk, hp, h0, rfl⟩
      · exact .oneRegister .push hf
      · exact .below hk hp h0
    | pop r =>
      rcases handlePop_eq_error.1 h with hf | ⟨k, hk, hp, htop, rfl⟩
      · exact .oneRegister .pop hf
      · exact .above hk hp htop
    | jeq r =>
      simp only [handlerResult, handleJeq] at h
      split at h
      · exact .oneRegister (.jeq ‹_›) (jumpTo_eq_error h)
      · cases h
    | jne r =>
      simp only [handlerResult, handleJne] at h
      split at h
      · cases h
      · exact .oneRegister (.jne (Bool.eq_false_iff.2 ‹_›)) (jumpTo_eq_error h)
    | jmp r => exact .oneRegister .jmp (jumpTo_eq_error h)
  · intro h
    cases h with
    | oneRegister hi hf =>
      obtain ⟨g, hg⟩ := hi.handlerResult_eq
      rw [hg, hf, bind_error]
    | ldi hf => exact hf
    | onAlu hi hf => rw [hi.handlerResult_eq, aluHandler, hf, bind_error]
    | below hk hp h0 => exact handlePush_eq_error.2 (.inr ⟨_, hk, hp, h0, rfl⟩)
    | above hk hp htop => exact handlePop_eq_error.2 (.inr ⟨_, hk, hp, htop, rfl⟩)

/-- A fault changes the record only (60_exceptions.md R210). -/
theorem exec_of_faults {i : Instr} {s : State} {f : FaultRecord} (h : Faults s i f) :
    exec i s = .next (s.withFault f) := by
  rw [exec_eq_complete, handlerResult_eq_error.2 h, complete_error]

theorem completes_or_faults_of_exec {i : Instr} {s t : State} (h : exec i s = .next t) :
    Completes s i t ∨ ∃ f, Faults s i f ∧ t = s.withFault f := by
  rcases exec_cases h with hc | ⟨f, hf, rfl⟩
  · exact .inl hc
  · exact .inr ⟨f, handlerResult_eq_error.1 hf, rfl⟩

/-! ### The statements -/

/-- Settles O34: the six forms begin with `fetchReg`, which fetches the byte and then checks the index. -/
theorem oneOperandFaults : Obligations.OneOperandFaults := by
  intro s r i hi
  have hone : OneRegister s.fl r i := by
    rcases hi with rfl | rfl | rfl | rfl | ⟨rfl, hfl⟩ | ⟨rfl, hfl⟩
    · exact .prn
    · exact .push
    · exact .pop
    · exact .jmp
    · exact .jeq hfl
    · exact .jne hfl
  exact ⟨fun hp => exec_of_faults (.oneRegister hone (fetchReg_eq_error.2 (.inl ⟨hp, rfl⟩))),
    fun hp hr => exec_of_faults (.oneRegister hone (fetchReg_eq_error.2 (.inr ⟨hp, hr, rfl⟩)))⟩

/-- Settles O35: the three faults of LDI. -/
theorem ldiFaults : Obligations.LdiFaults :=
  fun _ _ _ => ⟨fun hp => exec_of_faults (.ldi (handleLdi_eq_error.2 (.inl ⟨hp, rfl⟩))),
    fun h1 hp => exec_of_faults (.ldi (handleLdi_eq_error.2 (.inr (.inl ⟨h1, hp, rfl⟩)))),
    fun h2 hr => exec_of_faults (.ldi (handleLdi_eq_error.2 (.inr (.inr ⟨h2, hr, rfl⟩))))⟩

/-- Settles O36: the four faults of the operand pair in `decoded` mode. -/
theorem decodedAluFaults : Obligations.DecodedAluFaults := by
  intro s a b i hmode hi
  obtain ⟨op, pair, halu⟩ : ∃ op pair, OnAlu a b op pair i := by
    rcases hi with rfl | rfl | rfl
    · exact ⟨_, _, .mul⟩
    · exact ⟨_, _, .add⟩
    · exact ⟨_, _, .cmp⟩
  have key : ∀ f, aluPair s pair a b = .error f → exec i s = .next (s.withFault f) :=
    fun f hf => exec_of_faults (.onAlu halu hf)
  exact ⟨fun hp => key _ ((aluPair_eq_error hmode).2 (.inl ⟨hp, rfl⟩)),
    fun h1 hp => key _ ((aluPair_eq_error hmode).2 (.inr (.inl ⟨h1, hp, rfl⟩))),
    fun h2 ha => key _ ((aluPair_eq_error hmode).2 (.inr (.inr (.inl ⟨h2, ha, rfl⟩)))),
    fun h2 ha hb => key _ ((aluPair_eq_error hmode).2 (.inr (.inr (.inr ⟨h2, ha, hb, rfl⟩))))⟩

/-- Settles O37: the stack pointer POP increments is the one `afterPopLoad` leaves. -/
theorem stackPointerNeverWraps : Obligations.StackPointerNeverWraps := by
  intro s r k hk hp
  refine ⟨fun h0 => exec_of_faults (.below hk hp h0), fun hne htop => exec_of_faults (.above hk hp ?_),
    fun hsp htop => exec_of_faults (.above hk hp ?_)⟩
  · rwa [afterPopLoad_reg, if_neg hne.symm]
  · rwa [afterPopLoad_reg, if_pos hsp.symm]

/-- Settles O38: a completed instruction records no fault, so the step was a failed fetch or a faulting handler. -/
theorem faultsArePrecise : Obligations.FaultsArePrecise := by
  intro s t f hr h hf
  obtain ⟨hstarted, hfault, -⟩ := hr
  rcases step_cases h with ⟨h0, -⟩ | ⟨-, -, rfl⟩ | ⟨-, -, -, rfl⟩ | ⟨-, -, i, -, hexec⟩
  · simp [hstarted] at h0
  · cases hf
    rfl
  · cases hf
    rfl
  · rcases exec_cases hexec with hc | ⟨g, -, rfl⟩
    · simp [hc.fault_eq, hfault] at hf
    · cases hf
      rfl

theorem OneRegister.index_lt_of_wf {c : Config} {fl r : Byte} {i : Instr} (h : OneRegister fl r i)
    (hwf : i.wf c = true) : r.toNat < 8 := by
  cases h <;> exact of_decide_eq_true hwf

theorem OnAlu.indices_lt_of_wf {c : Config} {a b : Byte} {op : AluOp} {pair : Nat × Nat} {i : Instr}
    (h : OnAlu a b op pair i) (hmode : c.aluOperands = .decoded) (hwf : i.wf c = true) : a.toNat < 8 ∧ b.toNat < 8 := by
  cases h <;> simpa [Instr.wf, hmode, Byte.isRegIndex] using hwf

/-- With legal register operands the index checks of the operand phase succeed. -/
theorem Faults.ne_regIndex {s : State} {i : Instr} {f : FaultRecord} (h : Faults s i f) (hwf : i.wf s.cfg = true)
    (v : Int) : f ≠ .boundsFault .regIndex v := by
  cases h with
  | below | above => simp
  | oneRegister hi hf =>
    have hr := hi.index_lt_of_wf hwf
    rcases fetchReg_eq_error.1 hf with ⟨-, rfl⟩ | ⟨-, h8, -⟩
    · simp
    · omega
  | ldi hf =>
    have hr := of_decide_eq_true hwf
    rcases handleLdi_eq_error.1 hf with ⟨-, rfl⟩ | ⟨-, -, rfl⟩ | ⟨-, h8, -⟩
    · simp
    · simp
    · omega
  | onAlu hi hf =>
    cases hmode : s.cfg.aluOperands with
    | fixed => simp [aluPair_fixed hmode] at hf
    | decoded =>
      obtain ⟨ha, hb⟩ := hi.indices_lt_of_wf hmode hwf
      rcases (aluPair_eq_error hmode).1 hf with ⟨-, rfl⟩ | ⟨-, -, rfl⟩ | ⟨-, h8, -⟩ | ⟨-, -, h8, -⟩
      · simp
      · simp
      · omega
      · omega

/-- Settles O39: a completed instruction leaves no record, and no listed fault of a legal one is an index fault. -/
theorem wellFormedInstructionsNeverFaultOnAnIndex : Obligations.WellFormedInstructionsNeverFaultOnAnIndex := by
  intro i s t v hwf hnone h ht
  rcases completes_or_faults_of_exec h with hc | ⟨f, hf, rfl⟩
  · simp [hc.fault_eq, hnone] at ht
  · exact hf.ne_regIndex hwf v (Option.some.inj ht)

end Sys2Proof.Machine
end

section
/-! PROOFS. Operand modes (spec 43_arithmetic_compare.md R153), and what instructions leave alone: `halt`, memory and the
output (10_state.md R29, R32, 20_memory.md section 6). -/
namespace Sys2Proof.Machine

/-! ### Operand modes -/

theorem aluHandler_fixed {s : State} (h : s.cfg.aluOperands = .fixed) (op : AluOp) (pair : Nat × Nat)
    (a b a' b' : Byte) : aluHandler op pair a b s = aluHandler op pair a' b' s := by
  simp only [aluHandler, aluPair_fixed h]

/-- Settles O40: in `fixed` mode `aluPair` answers the handler's own pair, and then the instruction completes. -/
theorem fixedModeIgnoresOperandBytes : Obligations.FixedModeIgnoresOperandBytes := by
  intro s a b a' b' h
  have hcompletes : ∀ i ∈ [Instr.mul a b, .add a b, .cmp a b], ∃ t, Completes s i t := by
    simp only [List.forall_mem_cons, List.not_mem_nil, false_imp_iff, implies_true, and_true]
    exact ⟨⟨_, .mul (i := 0) (j := 1) (.inl ⟨h, rfl, rfl⟩)⟩, ⟨_, .add (i := 0) (j := 0) (.inl ⟨h, rfl, rfl⟩)⟩,
      ⟨_, .cmp (i := 0) (j := 1) (.inl ⟨h, rfl, rfl⟩)⟩⟩
  refine ⟨⟨?_, ?_, ?_⟩, fun i hi => ?_⟩
  · exact congrArg (complete s) (aluHandler_fixed h .mul (0, 1) a b a' b')
  · exact congrArg (complete s) (aluHandler_fixed h .add (0, 0) a b a' b')
  · exact congrArg (complete s) (aluHandler_fixed h .cmp (0, 1) a b a' b')
  · obtain ⟨t, hc⟩ := hcompletes i hi
    exact ⟨t, exec_of_completes hc, hc.fault_eq⟩

/-- The same machine with its ALU instructions in `decoded` mode. -/
def State.inDecodedMode (s : State) : State := { s with cfg := { s.cfg with aluOperands := .decoded } }

/-- Operand bytes that name the handler's own pair leave it the pair in `decoded` mode. -/
theorem PairIs.inDecodedMode {s : State} {pair : Nat × Nat} {a b : Byte} {i j : Fin 8} (h : PairIs s pair a b i j)
    (hmode : s.cfg.aluOperands = .fixed) (hp : s.pc + 2 < 256) (ha : a.toNat = pair.1) (hb : b.toNat = pair.2) :
    PairIs s.inDecodedMode pair a b i j := by
  rcases h with ⟨-, hi, hj⟩ | ⟨hdecoded, -⟩
  · exact .inr ⟨rfl, hp, ha.trans hi.symm, hb.trans hj.symm⟩
  · rw [hmode] at hdecoded
    cases hdecoded

/-- In `fixed` mode the ALU instructions complete, for no fault of theirs is listed. -/
theorem completes_of_exec_fixed {s t : State} {i : Instr} {a b : Byte} {op : AluOp} {pair : Nat × Nat}
    (hi : OnAlu a b op pair i) (hmode : s.cfg.aluOperands = .fixed) (h : exec i s = .next t) : Completes s i t := by
  rcases exec_cases h with hc | ⟨f, hf, -⟩
  · exact hc
  · rw [hi.handlerResult_eq] at hf
    have herror := hi.aluHandler_eq_error hf
    simp [aluPair_fixed hmode] at herror

/-- Settles O41: the instruction completes on the pair its bytes name, which is the pair of both modes. -/
theorem operandModesAgree : Obligations.OperandModesAgree := by
  intro s t i hi hp hmode h
  refine exec_of_completes (s := s.inDecodedMode) (t := t.inDecodedMode) ?_
  simp only [List.mem_cons, List.not_mem_nil, or_false] at hi
  rcases hi with rfl | rfl | rfl
  · cases completes_of_exec_fixed .mul hmode h with
    | mul hpair => exact .mul (hpair.inDecodedMode hmode hp rfl rfl)
  · cases completes_of_exec_fixed .add hmode h with
    | add hpair => exact .add (hpair.inDecodedMode hmode hp rfl rfl)
  · cases completes_of_exec_fixed .cmp hmode h with
    | cmp hpair => exact .cmp (hpair.inDecodedMode hmode hp rfl rfl)

/-! ### The halt flag -/

theorem exec_halt_of_ne_hlt {i : Instr} {s t : State} (h : exec i s = .next t) (hi : i ≠ .hlt) : t.halt = s.halt := by
  rcases exec_cases h with hc | ⟨f, -, rfl⟩
  · exact hc.halt_of_ne_hlt hi
  · exact withFault_halt s f

/-- No condition of a completion and no field it sets comes from `halt`. -/
theorem Completes.of_halt {s t : State} {i : Instr} (h : Completes s i t) (b : Bool) :
    ∃ t', Completes { s with halt := b } i t' ∧ { t' with halt := false } = { t with halt := false } := by
  cases h with
  | ldi hk hp => exact ⟨_, .ldi hk hp, rfl⟩
  | prn hk hp => exact ⟨_, .prn hk hp, rfl⟩
  | hlt => exact ⟨_, .hlt, rfl⟩
  | mul hpair => exact ⟨_, .mul hpair, rfl⟩
  | add hpair => exact ⟨_, .add hpair, rfl⟩
  | cmp hpair => exact ⟨_, .cmp hpair, rfl⟩
  | push hk hp h0 => exact ⟨_, .push hk hp h0, rfl⟩
  | pop hk hp htop => exact ⟨_, .pop hk hp htop, rfl⟩
  | jmp hk hp => exact ⟨_, .jmp hk hp, rfl⟩
  | jeqTaken hfl hk hp => exact ⟨_, .jeqTaken hfl hk hp, rfl⟩
  | jeqNotTaken hfl => exact ⟨_, .jeqNotTaken hfl, rfl⟩
  | jneTaken hfl hk hp => exact ⟨_, .jneTaken hfl hk hp, rfl⟩
  | jneNotTaken hfl => exact ⟨_, .jneNotTaken hfl, rfl⟩

/-- No condition of a fault comes from `halt`. -/
theorem Faults.of_halt {s : State} {i : Instr} {f : FaultRecord} (h : Faults s i f) (b : Bool) :
    Faults { s with halt := b } i f := by
  cases h with
  | oneRegister hi hf => exact .oneRegister hi hf
  | ldi hf =>
    have hconditions := handleLdi_eq_error.1 hf
    exact .ldi (handleLdi_eq_error.2 hconditions)
  | onAlu hi hf => exact .onAlu hi hf
  | below hk hp h0 => exact .below hk hp h0
  | above hk hp htop => exact .above hk hp htop

/-- Settles O42: only HLT sets `halt`; completions and faults are the same without it; run-start clears it. -/
theorem haltIsSetOnlyByHlt : Obligations.HaltIsSetOnlyByHlt := by
  refine ⟨fun i s t h => ⟨?_, exec_halt_of_ne_hlt h⟩, fun i s t b h => ?_, fun s t hs h => ?_,
    fun s hs hf hh => step_of_halt hs hf hh⟩
  · rintro rfl
    cases (exec_of_completes (s := s) .hlt).symm.trans h
    rfl
  · rcases completes_or_faults_of_exec h with hc | ⟨f, hf, rfl⟩
    · obtain ⟨t', hc', heq⟩ := hc.of_halt b
      exact ⟨t', exec_of_completes hc', heq⟩
    · exact ⟨_, exec_of_faults (hf.of_halt b), rfl⟩
  · cases (step_of_not_started hs).symm.trans h
    rfl

/-! ### Memory as data -/

/-- What POP loads is all it takes from memory. -/
theorem afterPopLoad_withMem {s : State} {m : Memory} (h : m.read (s.reg 7).toNat = s.mem.read (s.reg 7).toNat)
    (k : Fin 8) : afterPopLoad { s with mem := m } k = { afterPopLoad s k with mem := m } := by
  rw [afterPopLoad, afterPopLoad, ← h]
  rfl

theorem Completes.of_mem {s t : State} {i : Instr} {m : Memory} (h : Completes s i t) (hi : i.mnemonic ≠ .push)
    (hpop : i.mnemonic = .pop → m.read (s.reg 7).toNat = s.mem.read (s.reg 7).toNat) :
    Completes { s with mem := m } i { t with mem := m } := by
  cases h with
  | push => exact absurd rfl hi
  | @pop r k hk hp htop =>
    have hload := afterPopLoad_withMem (hpop rfl) k
    have h' : Completes { s with mem := m } (.pop r) (popped { s with mem := m } k) := .pop hk hp (by rwa [hload])
    rwa [popped, hload] at h'
  | ldi hk hp => exact .ldi hk hp
  | prn hk hp => exact .prn hk hp
  | hlt => exact .hlt
  | mul hpair => exact .mul hpair
  | add hpair => exact .add hpair
  | cmp hpair => exact .cmp hpair
  | jmp hk hp => exact .jmp hk hp
  | jeqTaken hfl hk hp => exact .jeqTaken hfl hk hp
  | jeqNotTaken hfl => exact .jeqNotTaken hfl
  | jneTaken hfl hk hp => exact .jneTaken hfl hk hp
  | jneNotTaken hfl => exact .jneNotTaken hfl

theorem Faults.of_mem {s : State} {i : Instr} {f : FaultRecord} {m : Memory} (h : Faults s i f)
    (hpop : i.mnemonic = .pop → m.read (s.reg 7).toNat = s.mem.read (s.reg 7).toNat) :
    Faults { s with mem := m } i f := by
  cases h with
  | oneRegister hi hf => exact .oneRegister hi hf
  | ldi hf =>
    have hconditions := handleLdi_eq_error.1 hf
    exact .ldi (handleLdi_eq_error.2 hconditions)
  | onAlu hi hf => exact .onAlu hi hf
  | below hk hp h0 => exact .below hk hp h0
  | above hk hp htop => exact .above hk hp (by rwa [afterPopLoad_withMem (hpop rfl)])

/-- PUSH writes one cell. -/
theorem Completes.read_of_push {s t : State} {i : Instr} (h : Completes s i t) (hs : s.mem.wf) (hi : i.mnemonic = .push)
    {a : Nat} (ha : a ≠ (s.reg 7).toNat - 1) : t.mem.read a = s.mem.read a := by
  cases h with
  | push _ _ h0 => rw [read_pushed hs h0, if_neg ha]
  | _ => cases hi

/-- Settles O43: the cells from the completions and from faults, which leave memory; the reads from both on other memory. -/
theorem onlyPushWritesAndOnlyPopReadsData : Obligations.OnlyPushWritesAndOnlyPopReadsData := by
  refine ⟨fun i s t hs h => ?_, fun i s t m hi h hpop => ?_⟩
  · rcases exec_cases h with hc | ⟨f, -, rfl⟩
    · exact ⟨hc.sameMem, fun hi a ha => hc.read_of_push hs hi ha⟩
    · exact ⟨fun _ _ => rfl, fun _ _ _ => rfl⟩
  · rcases completes_or_faults_of_exec h with hc | ⟨f, hf, rfl⟩
    · exact exec_of_completes (hc.of_mem hi hpop)
    · exact exec_of_faults (hf.of_mem hpop)

/-! ### The output -/

theorem exec_out_of_not_prn {i : Instr} {s t : State} (h : exec i s = .next t) (hi : i.mnemonic ≠ .prn) :
    t.out = s.out := by
  rcases exec_cases h with hc | ⟨f, -, rfl⟩
  · exact hc.out_of_not_prn hi
  · exact withFault_out s f

theorem exec_out_of_prn {i : Instr} {s t : State} (h : exec i s = .next t) (hi : i.mnemonic = .prn) :
    t.out = s.out ∨ ∃ k, t.out = s.out ++ [s.reg k] := by
  rcases exec_cases h with hc | ⟨f, -, rfl⟩
  · cases hc with
    | prn => exact .inr ⟨_, rfl⟩
    | _ => cases hi
  · exact .inl (withFault_out s f)

theorem step_out {s t : State} (h : step s = .next t) : ∃ later, t.out = s.out ++ later ∧ later.length ≤ 1 := by
  have same : t.out = s.out → ∃ later, t.out = s.out ++ later ∧ later.length ≤ 1 :=
    fun heq => ⟨[], by rw [heq, List.append_nil], Nat.zero_le 1⟩
  rcases step_cases h with ⟨-, rfl⟩ | ⟨-, -, rfl⟩ | ⟨-, -, -, rfl⟩ | ⟨-, -, i, -, hexec⟩
  · exact same (runStart_out s)
  · exact same (withFault_out s _)
  · exact same (withFault_out s _)
  · by_cases hi : i.mnemonic = .prn
    · rcases exec_out_of_prn hexec hi with heq | ⟨k, heq⟩
      · exact same heq
      · exact ⟨[s.reg k], heq, le_rfl⟩
    · exact same (exec_out_of_not_prn hexec hi)

theorem StepsTo.out {n : Nat} {s t : State} (h : StepsTo n s t) :
    ∃ later, t.out = s.out ++ later ∧ later.length ≤ n := by
  induction n generalizing s with
  | zero => exact ⟨[], by rw [← h, List.append_nil], le_rfl⟩
  | succ n ih =>
    obtain ⟨u, hstep, hrest⟩ := h
    obtain ⟨first, hfirst, hone⟩ := step_out hstep
    obtain ⟨later, hlater, hlen⟩ := ih hrest
    refine ⟨first ++ later, by rw [hlater, hfirst, List.append_assoc], ?_⟩
    rw [List.length_append]
    omega

/-- Settles O44: a step appends one value at most, and only PRN does. -/
theorem outputOnlyGrows : Obligations.OutputOnlyGrows :=
  ⟨fun _ _ _ h => ⟨exec_out_of_not_prn h, exec_out_of_prn h⟩, fun _ _ _ h => h.out⟩

end Sys2Proof.Machine
end

section
/-! PROOFS. The register access table (spec 10_state.md R24): what a completed instruction writes, and that it depends on
no register but those it reads. -/
namespace Sys2Proof.Machine

theorem ofNat_toNat_eq {r : Byte} {k : Fin 8} (h : r.toNat = k.val) : Fin.ofNat 8 r.toNat = k := by
  rw [h]
  exact Fin.ext (Nat.mod_eq_of_lt k.isLt)

/-! ### Registers written -/

/-- The destination of MUL and ADD in both modes. -/
theorem PairIs.written_eq {s : State} {n : Nat} {a b : Byte} {i j : Fin 8} (h : PairIs s (0, n) a b i j) :
    (if s.cfg.aluOperands = .fixed then [0] else [Fin.ofNat 8 a.toNat]) = [i] := by
  rcases h with ⟨h, hi, -⟩ | ⟨h, -, ha, -⟩
  · have hi0 : i = 0 := Fin.ext hi
    rw [if_pos h, hi0]
  · rw [if_neg (by simp [h]), ofNat_toNat_eq ha]

theorem Completes.sameRegsBut {s t : State} {i : Instr} (h : Completes s i t) :
    SameRegsBut (registersWritten s.cfg i) s t := by
  cases h with
  | ldi hk =>
    rw [registersWritten, ofNat_toNat_eq hk]
    exact sameRegsBut_setReg s _ _
  | mul hpair | add hpair =>
    rw [registersWritten, hpair.written_eq]
    exact sameRegsBut_setReg s _ _
  | push => exact sameRegsBut_pushed s _
  | pop hk =>
    rw [registersWritten, ofNat_toNat_eq hk]
    exact sameRegsBut_popped s _
  | prn | hlt | cmp | jmp | jeqTaken | jeqNotTaken | jneTaken | jneNotTaken => exact fun _ _ => rfl

/-! ### Registers read -/

/-- Both registers of an ALU instruction are among those its row lists, `l` being the ones of `fixed` mode. -/
theorem PairIs.mem_read {s : State} {pair : Nat × Nat} {a b : Byte} {i j : Fin 8} (h : PairIs s pair a b i j)
    {l : List (Fin 8)} (hl : ∀ k : Fin 8, k.val = pair.1 ∨ k.val = pair.2 → k ∈ l) :
    i ∈ (if s.cfg.aluOperands = .fixed then l else [Fin.ofNat 8 a.toNat, Fin.ofNat 8 b.toNat]) ∧
      j ∈ (if s.cfg.aluOperands = .fixed then l else [Fin.ofNat 8 a.toNat, Fin.ofNat 8 b.toNat]) := by
  rcases h with ⟨h, hi, hj⟩ | ⟨h, -, ha, hb⟩
  · rw [if_pos h]
    exact ⟨hl i (.inl hi), hl j (.inr hj)⟩
  · rw [if_neg (by simp [h]), ofNat_toNat_eq ha, ofNat_toNat_eq hb]
    simp

theorem mem_singleton_ofNat {r : Byte} {k : Fin 8} (h : r.toNat = k.val) : k ∈ [Fin.ofNat 8 r.toNat] :=
  List.mem_singleton.2 (ofNat_toNat_eq h).symm

theorem registersRead_jeq_taken {fl : Byte} (h : equalBit fl = true) (c : Config) (r : Byte) :
    registersRead c fl (.jeq r) = [Fin.ofNat 8 r.toNat] := if_pos h

theorem registersRead_jne_taken {fl : Byte} (h : equalBit fl = false) (c : Config) (r : Byte) :
    registersRead c fl (.jne r) = [Fin.ofNat 8 r.toNat] := if_neg (Bool.eq_false_iff.1 h)

/-! ### Other registers in their place -/

/-- The same state but for its registers. -/
def State.withRegs (s : State) (regs : Vector Byte 8) : State := { s with regs := regs }

/-- With these registers in its place, `i` completes as it does from `s` to `t`: the registers it writes hold the same
values, and the rest of the state is the same. -/
def CompletesAlike (regs : Vector Byte 8) (i : Instr) (s t : State) : Prop :=
  ∃ t', Completes (s.withRegs regs) i t' ∧ t' = { t with regs := t'.regs } ∧
    ∀ k ∈ registersWritten s.cfg i, t'.reg k = t.reg k

theorem completesAlike_of_unwritten {regs : Vector Byte 8} {i : Instr} {s t : State}
    (h : Completes (s.withRegs regs) i (t.withRegs regs)) (hw : registersWritten s.cfg i = []) :
    CompletesAlike regs i s t :=
  ⟨_, h, rfl, by simp [hw]⟩

theorem completesAlike_of_setReg {regs : Vector Byte 8} {i : Instr} {s : State} {k : Fin 8} {v : Byte}
    (h : Completes (s.withRegs regs) i (((s.withRegs regs).setReg k v).advance 3))
    (hw : registersWritten s.cfg i = [k]) : CompletesAlike regs i s ((s.setReg k v).advance 3) :=
  ⟨_, h, rfl, by simp [hw]⟩

theorem completesAlike_of_withPc {regs : Vector Byte 8} {i : Instr} {s : State} {k : Fin 8}
    (hk : (s.withRegs regs).reg k = s.reg k)
    (h : Completes (s.withRegs regs) i ((s.withRegs regs).withPc ((s.withRegs regs).reg k).toNat))
    (hw : registersWritten s.cfg i = []) : CompletesAlike regs i s (s.withPc (s.reg k).toNat) := by
  rw [hk] at h
  exact completesAlike_of_unwritten h hw

theorem pushed_mem (s : State) (k : Fin 8) :
    (pushed s k).mem = s.mem.write (s.reg 7 - 1).toNat (if k = 7 then s.reg 7 - 1 else s.reg k) := by
  rw [← reg_setReg]
  rfl

theorem pushed_withRegs {s : State} {regs : Vector Byte 8} {k : Fin 8} (h7 : (s.withRegs regs).reg 7 = s.reg 7)
    (hk : (s.withRegs regs).reg k = s.reg k) :
    pushed (s.withRegs regs) k = { pushed s k with regs := (pushed (s.withRegs regs) k).regs } := by
  have hmem : (pushed (s.withRegs regs) k).mem = (pushed s k).mem := by
    rw [pushed_mem, pushed_mem, h7, hk]
    rfl
  calc pushed (s.withRegs regs) k
      = { pushed s k with regs := (pushed (s.withRegs regs) k).regs, mem := (pushed (s.withRegs regs) k).mem } := rfl
    _ = { pushed s k with regs := (pushed (s.withRegs regs) k).regs } := by rw [hmem]

theorem afterPopLoad_withRegs {s : State} {regs : Vector Byte 8} (h7 : (s.withRegs regs).reg 7 = s.reg 7) (k : Fin 8) :
    ∀ j ∈ [k, 7], (afterPopLoad (s.withRegs regs) k).reg j = (afterPopLoad s k).reg j := by
  intro j hj
  rw [afterPopLoad_reg, afterPopLoad_reg, h7]
  split
  · rfl
  next hne =>
    obtain rfl : j = 7 := by simpa [hne] using hj
    exact h7

theorem popped_withRegs {s : State} {regs : Vector Byte 8} (h7 : (s.withRegs regs).reg 7 = s.reg 7) (k : Fin 8) :
    ∀ j ∈ [k, 7], (popped (s.withRegs regs) k).reg j = (popped s k).reg j := by
  intro j hj
  have hload := afterPopLoad_withRegs h7 k
  by_cases hj7 : j = 7
  · rw [hj7, popped_reg_sp, popped_reg_sp, hload 7 (by simp)]
  · rw [popped_reg_of_ne_sp _ k hj7, popped_reg_of_ne_sp _ k hj7, hload j hj]

/-- What an instruction does depends on no register but those its row lists as read. -/
theorem Completes.alike {s t : State} {i : Instr} (h : Completes s i t) {regs : Vector Byte 8}
    (hread : ∀ k ∈ registersRead s.cfg s.fl i, (s.withRegs regs).reg k = s.reg k) : CompletesAlike regs i s t := by
  cases h with
  | ldi hk hp => exact completesAlike_of_setReg (.ldi hk hp) (by rw [registersWritten, ofNat_toNat_eq hk])
  | @prn r k hk hp =>
    have h' : Completes (s.withRegs regs) (.prn r) (((s.withRegs regs).emit _).advance 2) := .prn hk hp
    rw [hread k (mem_singleton_ofNat hk)] at h'
    exact completesAlike_of_unwritten h' rfl
  | hlt => exact completesAlike_of_unwritten .hlt rfl
  | @mul a b i j hpair =>
    obtain ⟨hi, hj⟩ := hpair.mem_read (l := [0, 1]) (by decide)
    have h' : Completes (s.withRegs regs) (.mul a b) (((s.withRegs regs).setReg i (aluMul _ _)).advance 3) := .mul hpair
    rw [hread i hi, hread j hj] at h'
    exact completesAlike_of_setReg h' hpair.written_eq
  | @add a b i j hpair =>
    obtain ⟨hi, hj⟩ := hpair.mem_read (l := [0]) (by decide)
    have h' : Completes (s.withRegs regs) (.add a b) (((s.withRegs regs).setReg i (aluAdd _ _)).advance 3) := .add hpair
    rw [hread i hi, hread j hj] at h'
    exact completesAlike_of_setReg h' hpair.written_eq
  | @cmp a b i j hpair =>
    obtain ⟨hi, hj⟩ := hpair.mem_read (l := [0, 1]) (by decide)
    have h' : Completes (s.withRegs regs) (.cmp a b) (((s.withRegs regs).withFl (compareFlags _ _)).advance 3) :=
      .cmp hpair
    rw [hread i hi, hread j hj] at h'
    exact completesAlike_of_unwritten h' rfl
  | @push r k hk hp h0 =>
    have h7 := hread 7 List.mem_cons_self
    have hkey := hread k (List.mem_cons_of_mem _ (mem_singleton_ofNat hk))
    refine ⟨_, .push hk hp (h7 ▸ h0), pushed_withRegs h7 hkey, fun j hj => ?_⟩
    obtain rfl : j = 7 := List.mem_singleton.1 hj
    rw [pushed_reg, pushed_reg, h7]
  | @pop r k hk hp htop =>
    have h7 := hread 7 (List.mem_singleton_self 7)
    refine ⟨_, .pop hk hp (afterPopLoad_withRegs h7 k 7 (by simp) ▸ htop), rfl, ?_⟩
    rw [registersWritten, ofNat_toNat_eq hk]
    exact popped_withRegs h7 k
  | jmp hk hp => exact completesAlike_of_withPc (hread _ (mem_singleton_ofNat hk)) (.jmp hk hp) rfl
  | jeqTaken hfl hk hp =>
    rw [registersRead_jeq_taken hfl] at hread
    exact completesAlike_of_withPc (hread _ (mem_singleton_ofNat hk)) (.jeqTaken hfl hk hp) rfl
  | jneTaken hfl hk hp =>
    rw [registersRead_jne_taken hfl] at hread
    exact completesAlike_of_withPc (hread _ (mem_singleton_ofNat hk)) (.jneTaken hfl hk hp) rfl
  | jeqNotTaken hfl => exact completesAlike_of_unwritten (.jeqNotTaken hfl) rfl
  | jneNotTaken hfl => exact completesAlike_of_unwritten (.jneNotTaken hfl) rfl

/-- Settles O46: the frame of both runs by `Completes.sameRegsBut`, the second run by `Completes.alike`. -/
theorem registersReadAndWritten : Obligations.RegistersReadAndWritten := by
  intro i s s' t _ h ht hs' hread
  have hc := completes_of_exec h ht
  obtain ⟨regs, rfl⟩ : ∃ regs, s' = s.withRegs regs := ⟨_, hs'⟩
  obtain ⟨t', hc', heq, hwritten⟩ := hc.alike hread
  exact ⟨hc.sameRegsBut, t', exec_of_completes hc', heq, hwritten, hc'.sameRegsBut⟩

end Sys2Proof.Machine
end

section
/-! PROOFS. The stack and fetch (spec 20_memory.md section 5, 44_stack.md): fetch sees the byte a PUSH stored, and a POP
right after a PUSH takes it back. -/
namespace Sys2Proof.Machine

theorem fetchWindow_getElem? {j : Nat} (hj : j < 3) (s : State) : (fetchWindow s)[j]? = some (windowByte s 0 j) := by
  interval_cases j <;> rfl

/-- Settles O47: the window holds the cells of memory, and `read_pushed` gives each. -/
theorem fetchSeesThePushedByte : Obligations.FetchSeesThePushedByte := by
  intro s t r k j hr hk hp h0 hs h hj htop
  cases (exec_of_completes (.push hk hp h0)).symm.trans h
  have hsp : (pushed s k).reg 7 = s.reg 7 - 1 := pushed_reg s k 7
  rw [fetchWindow_getElem? hj, windowByte_of_lt htop, hsp, toNat_sub_one h0]
  refine ⟨hr, fun ha => ?_, fun ha => ?_⟩
  · rw [ha, read_pushed hs h0, if_pos rfl]
  · rw [read_pushed hs h0, if_neg ha]

/-- POP finds the byte PUSH stored, so it loads the register with what it holds. -/
theorem afterPopLoad_pushed_reg {s : State} (hs : s.mem.wf) (h0 : s.reg 7 ≠ 0) (k j : Fin 8) :
    (afterPopLoad (pushed s k) k).reg j = (pushed s k).reg j := by
  rw [afterPopLoad_reg]
  split
  next hj =>
    rw [pushed_reg s k 7, if_pos rfl, toNat_sub_one h0, read_pushed hs h0, if_pos rfl, hj, pushed_reg]
  · rfl

theorem popped_pushed_reg {s : State} (hs : s.mem.wf) (h0 : s.reg 7 ≠ 0) (k j : Fin 8) :
    (popped (pushed s k) k).reg j = s.reg j := by
  by_cases hj : j = 7
  · rw [hj, popped_reg_sp, afterPopLoad_pushed_reg hs h0, pushed_reg, if_pos rfl, BitVec.sub_add_cancel]
  · rw [popped_reg_of_ne_sp _ k hj, afterPopLoad_pushed_reg hs h0, pushed_reg, if_neg hj]

theorem sub_one_ne_top {v : Byte} (h : v ≠ 0) : v - 1 ≠ 255 := by
  intro htop
  have hlt := byte_lt_256 v
  have hsub := toNat_sub_one h
  rw [htop] at hsub
  have : (255 : Byte).toNat = 255 := rfl
  omega

/-- Settles O48: PUSH and POP are fetched one after the other, the store being outside the POP's bytes, and complete. -/
theorem pushThenPopRestores : Obligations.PushThenPopRestores := by
  intro s r k hr hc hs hk hp hop hoperand hop' hoperand' h0 hne hne'
  have hpush : Completes s (.push r) (pushed s k) := .push hk (by omega) h0
  have htop : (afterPopLoad (pushed s k) k).reg 7 ≠ 255 := by
    rw [afterPopLoad_pushed_reg hs h0, pushed_reg, if_pos rfl]
    exact sub_one_ne_top h0
  have hpop : Completes (pushed s k) (.pop r) (popped (pushed s k) k) := .pop hk hp htop
  have hread : ∀ a, a ≠ (s.reg 7).toNat - 1 → (pushed s k).mem.read a = s.mem.read a := by
    intro a ha
    rw [read_pushed hs h0, if_neg ha]
  have hstep : step s = exec (.push r) s := by
    rw [step_of_code (m := .push) hr hc (by omega) hop, windowByte_of_lt (by omega), hoperand]
    rfl
  have hfetch : windowByte (pushed s k) 0 1 = r :=
    (windowByte_of_lt (s := pushed s k) (k := 1) hp 0).trans ((hread _ hne'.symm).trans hoperand')
  have hstep' : step (pushed s k) = exec (.pop r) (pushed s k) := by
    have hcode : (pushed s k).mem.read (s.pc + 2) = s.cfg.opcodes.pop := (hread _ hne.symm).trans hop'
    have hlt : s.pc + 2 < 256 := by omega
    rw [step_of_code (s := pushed s k) (m := .pop) hr hc hlt hcode, hfetch]
    rfl
  refine ⟨_, _, hstep.trans (exec_of_completes hpush), hstep'.trans (exec_of_completes hpop),
    fun j _ => popped_pushed_reg hs h0 k j, rfl, ?_, hread, ⟨rfl, rfl, rfl, rfl, rfl⟩, rfl, rfl⟩
  exact (read_pushed hs h0 k _).trans (if_pos rfl)

end Sys2Proof.Machine
end
